-- ==== Sys2Proof/Word.lean ====
section
/-! DEFINITION. The word of the machine: one byte, and the index of one of the eight registers
(spec/00_scope.md rules R6 and R7, spec/10_state.md rule R10). -/

namespace Sys2Proof

/-- A byte, the only width of the machine (`XLEN`, rule R6): registers, FL, PC, addresses, memory
bytes and every ALU operand and result. -/
abbrev Byte := BitVec 8

/-- The index of a register, R0 to R7 (`NREG`, rule R10). -/
abbrev RegIdx := Fin 8

/-- The operand byte that names a register: the index itself (rule R56). -/
def RegIdx.toByte (r : RegIdx) : Byte := BitVec.ofNat 8 r.val

end Sys2Proof
end

