-- ==== Sys2Proof/Config.lean ====
section
/-! DEFINITION. The parameters of the machine (spec/00_scope.md rule R6) that are no width:
the fixed numbers, the policy for DIV by zero, and the two texts the spec leaves OPEN. The
parameter `OPCODE_BYTE` is in Sys2Proof/Decode.lean, beside the decoder that reads it. -/

namespace Sys2Proof.Config

/-- The ISA string (rule R3; it has no behaviour). -/
def isaString : String := "LS-8/sttbtt-v7"

/-- `NREG`: the number of general registers (rules R6 and R10). -/
abbrev nreg : Nat := 8

/-- `MEMSIZE`: the bytes of memory (rules R6 and R27). -/
abbrev memSize : Nat := 256

/-- `SP_INDEX`: the register the stack primitives use (rules R6 and R11). -/
def spIndex : RegIdx := 7

/-- `SP_RESET`: register 7 after reset (rules R6 and R119). -/
def spReset : Byte := 0xF4

/-- `PC_RESET`: the program counter after reset (rules R6 and R119). -/
def pcReset : Byte := 0x00

/-- The values the parameter `DIV_ZERO_POLICY` may take (rule R80). -/
inductive DivZeroPolicy where
  /-- DIV by zero raises the fault DIVIDE_BY_ZERO. -/
  | fault
  /-- DIV by zero takes the zero-divisor halt of MOD. -/
  | modLike
  deriving DecidableEq, Repr

/-- `DIV_ZERO_POLICY` of this hardware: `fault` (rules R6 and R80). -/
def divZeroPolicy : DivZeroPolicy := .fault

/-- `DIV0_MESSAGE`, the text of the divide-by-zero line: OPEN in the spec (rule R112), so a free
value with no body (log entry 6). -/
opaque div0Message : String

/-- `LINE_END`, the line terminator of the output sink: OPEN in the spec (rule R112), so a free
value with no body (log entry 6). -/
opaque lineEnd : String

end Sys2Proof.Config
end

