-- ==== Sys2Proof/Syntax.lean ====
section
/-! DEFINITION. The 22 instructions (spec/00_scope.md rule R2), each with its operand bytes
(spec/30_encoding.md rules R50 and R55). A register operand is kept as the byte it is: values 8 to
255 are encodings of the instruction too, and executing them raises ILLEGAL_REGISTER (rule R56). -/

namespace Sys2Proof

/-- An instruction with its operand bytes; `rA` and `rB` are register operand bytes, `imm` is LDI's
immediate (rule R55). Constructors stand in the order of spec/opcode_table.json. -/
inductive Instr where
  | hlt
  | ret
  | push (rA : Byte)
  | pop (rA : Byte)
  | prn (rA : Byte)
  | call (rA : Byte)
  | jmp (rA : Byte)
  | jeq (rA : Byte)
  | jne (rA : Byte)
  | not (rA : Byte)
  | ldi (rA imm : Byte)
  | add (rA rB : Byte)
  | sub (rA rB : Byte)
  | mul (rA rB : Byte)
  | div (rA rB : Byte)
  | mod (rA rB : Byte)
  | cmp (rA rB : Byte)
  | and (rA rB : Byte)
  | or (rA rB : Byte)
  | xor (rA rB : Byte)
  | shl (rA rB : Byte)
  | shr (rA rB : Byte)
  deriving DecidableEq, Repr

/-- The operation an opcode byte selects (rule R51). -/
inductive Opcode where
  | hlt | ret
  | push | pop | prn | call | jmp | jeq | jne | not
  | ldi
  | add | sub | mul | div | mod | cmp | and | or | xor | shl | shr
  deriving DecidableEq, Repr

/-- The four instruction formats (rule R50). -/
inductive Format where
  /-- opcode alone -/
  | f0
  /-- opcode, register -/
  | f1R
  /-- opcode, register, register -/
  | f2RR
  /-- opcode, register, immediate byte -/
  | f2RI
  deriving DecidableEq, Repr

end Sys2Proof
end

