-- ==== Sys2Proof/WellFormed.lean ====
section
/-! DEFINITION. Which instructions are well formed: every byte that names a register is 0 to 7
(spec/30_encoding.md rules R56 and R57). -/

namespace Sys2Proof

/-- A register operand byte is legal when it is 0 to 7 (rule R56). -/
def regByteOk (b : Byte) : Bool := decide (b.toNat < Config.nreg)

/-- The operand bytes that rule R55 marks as register indices, rA before rB. LDI's immediate is not
among them (rule R57). -/
def Instr.regOperands : Instr → List Byte
  | .hlt => []
  | .ret => []
  | .push rA => [rA]
  | .pop rA => [rA]
  | .prn rA => [rA]
  | .call rA => [rA]
  | .jmp rA => [rA]
  | .jeq rA => [rA]
  | .jne rA => [rA]
  | .not rA => [rA]
  | .ldi rA _ => [rA]
  | .add rA rB => [rA, rB]
  | .sub rA rB => [rA, rB]
  | .mul rA rB => [rA, rB]
  | .div rA rB => [rA, rB]
  | .mod rA rB => [rA, rB]
  | .cmp rA rB => [rA, rB]
  | .and rA rB => [rA, rB]
  | .or rA rB => [rA, rB]
  | .xor rA rB => [rA, rB]
  | .shl rA rB => [rA, rB]
  | .shr rA rB => [rA, rB]

/-- An instruction is well formed when every register operand is legal (rule R57). An instruction
that is not executes too: it raises ILLEGAL_REGISTER. -/
def Instr.wf (i : Instr) : Bool := i.regOperands.all regByteOk

end Sys2Proof
end

