-- ==== Sys2Proof/Decode.lean ====
section
/-! DEFINITION. The opcode map, the decoder and, after it, the encoder (spec/30_encoding.md rules
R50 to R63). Both read the one parameter `OPCODE_BYTE`, an assignment of a byte to each of the 22
operations, whose default is the table of rule R58. -/

namespace Sys2Proof

/-! ### The opcode map -/

/-- An assignment of opcode bytes: a value of the parameter `OPCODE_BYTE` (rule R58). -/
abbrev OpcodeAssignment := Opcode → Byte

/-- The default of `OPCODE_BYTE`, the table of rule R58 (PRESUMED: standard LS-8 values, see log
entry 1). -/
def opcodeByte : OpcodeAssignment
  | .hlt => 0x01
  | .ret => 0x11
  | .push => 0x45
  | .pop => 0x46
  | .prn => 0x47
  | .call => 0x50
  | .jmp => 0x54
  | .jeq => 0x55
  | .jne => 0x56
  | .not => 0x69
  | .ldi => 0x82
  | .add => 0xA0
  | .sub => 0xA1
  | .mul => 0xA2
  | .div => 0xA3
  | .mod => 0xA4
  | .cmp => 0xA7
  | .and => 0xA8
  | .or => 0xAA
  | .xor => 0xAB
  | .shl => 0xAC
  | .shr => 0xAD

/-- The 22 operations, in the order of the table of rule R58. -/
def Opcode.all : List Opcode :=
  [.hlt, .ret, .push, .pop, .prn, .call, .jmp, .jeq, .jne, .not, .ldi] ++
  [.add, .sub, .mul, .div, .mod, .cmp, .and, .or, .xor, .shl, .shr]

/-- The format of each operation (rules R50 and R55). -/
def Opcode.format : Opcode → Format
  | .hlt => .f0
  | .ret => .f0
  | .push => .f1R
  | .pop => .f1R
  | .prn => .f1R
  | .call => .f1R
  | .jmp => .f1R
  | .jeq => .f1R
  | .jne => .f1R
  | .not => .f1R
  | .ldi => .f2RI
  | .add => .f2RR
  | .sub => .f2RR
  | .mul => .f2RR
  | .div => .f2RR
  | .mod => .f2RR
  | .cmp => .f2RR
  | .and => .f2RR
  | .or => .f2RR
  | .xor => .f2RR
  | .shl => .f2RR
  | .shr => .f2RR

/-- The number of operand bytes of a format (rule R50). -/
def Format.operands : Format → Nat
  | .f0 => 0
  | .f1R => 1
  | .f2RR => 2
  | .f2RI => 2

/-- The operand count an opcode byte carries in its top two bits (rule R54). -/
def operandCount (ir : Byte) : Nat := (ir >>> 6).toNat

/-- The constraints on any value of `OPCODE_BYTE` (rule R59): the bytes are distinct, and the top
two bits of each are its operand count (so none has top bits 0b11). -/
def OpcodeAssignment.Legal (ob : OpcodeAssignment) : Prop :=
  (∀ o p, ob o = ob p → o = p) ∧ ∀ o, operandCount (ob o) = o.format.operands

/-! ### The decoder -/

/-- Why bytes are no instruction. -/
inductive DecodeReject where
  /-- The opcode byte is not in the opcode table (rule R62). -/
  | undefinedOpcode (ir : Byte)
  /-- A byte list ends before the instruction's operand bytes; a fetch, which always reads three
  bytes (rule R53), never meets it. -/
  | truncated
  deriving DecidableEq, Repr

/-- `decode(ir)` of rule R58: the operation whose byte is `ir`, or none. The whole byte selects it
(rule R51). -/
def decodeOpcodeWith (ob : OpcodeAssignment) (ir : Byte) : Option Opcode :=
  Opcode.all.find? (fun o => ob o == ir)

/-- The instruction an operation makes of the two fetched operand bytes; a byte the format does not
have is ignored (rules R53 and R55). -/
def Opcode.withOperands (a b : Byte) : Opcode → Instr
  | .hlt => .hlt
  | .ret => .ret
  | .push => .push a
  | .pop => .pop a
  | .prn => .prn a
  | .call => .call a
  | .jmp => .jmp a
  | .jeq => .jeq a
  | .jne => .jne a
  | .not => .not a
  | .ldi => .ldi a b
  | .add => .add a b
  | .sub => .sub a b
  | .mul => .mul a b
  | .div => .div a b
  | .mod => .mod a b
  | .cmp => .cmp a b
  | .and => .and a b
  | .or => .or a b
  | .xor => .xor a b
  | .shl => .shl a b
  | .shr => .shr a b

/-- Decode the three bytes every fetch reads (rules R52 and R53). -/
def decodeWith (ob : OpcodeAssignment) (ir a b : Byte) : Except DecodeReject Instr :=
  match decodeOpcodeWith ob ir with
  | some o => .ok (o.withOperands a b)
  | none => .error (.undefinedOpcode ir)

/-- Decode the instruction at the head of a byte list and give the rest of the list; the length
comes from the opcode byte alone (rules R54 and R63). -/
def decodeBytesWith (ob : OpcodeAssignment) : List Byte → Except DecodeReject (Instr × List Byte)
  | [] => .error .truncated
  | ir :: rest =>
    match decodeOpcodeWith ob ir with
    | none => .error (.undefinedOpcode ir)
    | some o =>
      if operandCount ir ≤ rest.length then
        .ok (o.withOperands (rest.getD 0 0) (rest.getD 1 0), rest.drop (operandCount ir))
      else .error .truncated

/-- The decoder of this hardware, on the three fetched bytes. -/
def decode (ir a b : Byte) : Except DecodeReject Instr := decodeWith opcodeByte ir a b

/-- The decoder of this hardware, on a byte list. -/
def decodeBytes (bs : List Byte) : Except DecodeReject (Instr × List Byte) :=
  decodeBytesWith opcodeByte bs

/-! ### The encoder -/

/-- The operation of an instruction (rule R58). -/
def Instr.opcode : Instr → Opcode
  | .hlt => .hlt
  | .ret => .ret
  | .push _ => .push
  | .pop _ => .pop
  | .prn _ => .prn
  | .call _ => .call
  | .jmp _ => .jmp
  | .jeq _ => .jeq
  | .jne _ => .jne
  | .not _ => .not
  | .ldi _ _ => .ldi
  | .add _ _ => .add
  | .sub _ _ => .sub
  | .mul _ _ => .mul
  | .div _ _ => .div
  | .mod _ _ => .mod
  | .cmp _ _ => .cmp
  | .and _ _ => .and
  | .or _ _ => .or
  | .xor _ _ => .xor
  | .shl _ _ => .shl
  | .shr _ _ => .shr

/-- The operand bytes of an instruction, the byte at pc+1 first (rules R50 and R55). -/
def Instr.operandBytes : Instr → List Byte
  | .hlt => []
  | .ret => []
  | .push rA => [rA]
  | .pop rA => [rA]
  | .prn rA => [rA]
  | .call rA => [rA]
  | .jmp rA => [rA]
  | .jeq rA => [rA]
  | .jne rA => [rA]
  | .not rA => [rA]
  | .ldi rA imm => [rA, imm]
  | .add rA rB => [rA, rB]
  | .sub rA rB => [rA, rB]
  | .mul rA rB => [rA, rB]
  | .div rA rB => [rA, rB]
  | .mod rA rB => [rA, rB]
  | .cmp rA rB => [rA, rB]
  | .and rA rB => [rA, rB]
  | .or rA rB => [rA, rB]
  | .xor rA rB => [rA, rB]
  | .shl rA rB => [rA, rB]
  | .shr rA rB => [rA, rB]

/-- The bytes of an instruction under an opcode assignment, at increasing addresses (rules R29 and
R50). -/
def encodeWith (ob : OpcodeAssignment) (i : Instr) : List Byte := ob i.opcode :: i.operandBytes

/-- The bytes of an instruction on this hardware. -/
def encode (i : Instr) : List Byte := encodeWith opcodeByte i

/-- The length of an instruction in bytes (rule R50). -/
def Instr.length (i : Instr) : Nat := i.opcode.format.operands + 1

/-! ### Words numbered as spec/opcode_table.json numbers them -/

/-- Byte `k` of a table word: the opcode is byte 0, and every bit above the row's `nbits` is 0. -/
def tableByte (nbits w k : Nat) : Byte := BitVec.ofNat 8 ((w % 2 ^ nbits) / 2 ^ (8 * k))

/-- The instruction the decoder reads from a table word, none where it refuses. -/
def decodeTableWord (nbits w : Nat) : Option Instr :=
  match decode (tableByte nbits w 0) (tableByte nbits w 1) (tableByte nbits w 2) with
  | .ok i => some i
  | .error _ => none

end Sys2Proof
end

