-- ==== Sys2Proof/Machine/State.lean ====
section
/-! DEFINITION. The state of the machine, all of it as plain data (spec/10_state.md rule R10 to R24
and its state summary), the reasons a step can stop, and the state after reset
(spec/70_reset_and_hazards.md rule R119). -/

namespace Sys2Proof.Machine

/-- Why a halted core halted (rules R19 and R104). -/
inductive HaltCause where
  /-- `HLT`: the instruction HLT (rule R101). -/
  | hlt
  /-- `ZERO_DIVISOR`: MOD with a zero divisor (rules R79 and R105). -/
  | zeroDivisor
  deriving DecidableEq, Repr

/-- Why a faulted core faulted (rule R104). -/
inductive FaultCause where
  /-- `DIVIDE_BY_ZERO` (rule R107). -/
  | divideByZero
  /-- `ILLEGAL_REGISTER` (rule R108). -/
  | illegalRegister
  deriving DecidableEq, Repr

/-- The fault record {cause, pc, ir, a, b} (rule R106). -/
structure FaultRecord where
  cause : FaultCause
  pc : Byte
  ir : Byte
  a : Byte
  b : Byte
  deriving DecidableEq, Repr

/-- The run state with what it records (rule R19). -/
inductive RunState where
  | running
  | halted (cause : HaltCause)
  | faulted (record : FaultRecord)
  deriving DecidableEq, Repr

/-- One event of the output sink (rule R112). -/
inductive Event where
  /-- `Num(v)`, sent by PRN. -/
  | num (v : Byte)
  /-- `DivZeroDiag`, sent by the zero-divisor halt. -/
  | divZeroDiag
  deriving DecidableEq, Repr

/-- Memory as the list of its bytes that are not 0x00, by rising address. An address that is not
listed reads as 0x00, the value reset gives every byte (rules R23 and R119). -/
abbrev Memory := List Host.Cell

/-- The canonical form of a memory: addresses strictly rising, all of them within the 256 bytes of
rule R27, and no byte listed that an unlisted address reads as anyway. -/
abbrev Memory.Wf (m : Memory) : Prop :=
  m.Pairwise (fun c d => c.1 < d.1) ∧ ∀ c ∈ m, c.1 < Config.memSize ∧ c.2 ≠ 0

/-- Everything the spec gives the machine (the state summary of spec/10_state.md). -/
structure State where
  /-- R0 to R7; R7 is SP, not a register of its own (rules R10 and R11). -/
  regs : Vector Byte 8
  /-- The flag byte: bit 0 E, bit 1 G, bit 2 L, bits 7..3 zero (rule R14). -/
  fl : Byte
  /-- The program counter (rule R17). -/
  pc : Byte
  /-- The run state with its halt cause or fault record (rule R19). -/
  run : RunState
  /-- The instruction register, the byte fetched at pc (rule R20). -/
  ir : Byte
  /-- The operand latch `a`, the byte fetched at pc+1 (rule R20). -/
  opA : Byte
  /-- The operand latch `b`, the byte fetched at pc+2 (rule R20). -/
  opB : Byte
  /-- The 256 bytes of memory (rule R23). -/
  mem : Memory
  /-- The output log, oldest event first (rule R24). -/
  out : List Event
  deriving DecidableEq, Repr

/-- Why no step is taken. Only `step` raises these, and only outside RUNNING: an instruction that
raises a fault of the spec answers a NEXT state whose run state is FAULTED (log entry 3). -/
inductive Fault where
  /-- Raised by `step` in HALTED, which is terminal: no step is taken (rules R19, R52 and R114).
  Safe: nothing runs where the core runs nothing. -/
  | notRunningHalted (cause : HaltCause)
  /-- Raised by `step` in FAULTED, which is terminal: no step is taken (rules R19, R52 and R114).
  Safe: nothing runs where the core runs nothing. -/
  | notRunningFaulted (record : FaultRecord)
  deriving DecidableEq, Repr

/-- Why an input is turned away. -/
inductive Refusal where
  /-- Kept for an instruction without a meaning; no instruction of this model is without one, so
  nothing raises it. Safe. -/
  | notModelled (mnemonic : String)
  /-- Raised by the host's load of a program image of more than 256 bytes, never by a step
  (rule R120). Safe: such an image describes no start state. -/
  | imageTooLarge (length : Nat)
  deriving DecidableEq, Repr

/-- What an instruction or a step answers. -/
abbrev StepResult := Host.Outcome State Fault Refusal

/-- The machine right after reset (rule R119). The latches IR, a and b have no reset value in the
spec; zero is the model's (log entry 2). -/
def State.reset : State where
  regs := #v[0, 0, 0, 0, 0, 0, 0, Config.spReset]
  fl := 0
  pc := Config.pcReset
  run := .running
  ir := 0
  opA := 0
  opB := 0
  mem := []
  out := []

end Sys2Proof.Machine
end

