-- ==== Sys2Proof/Machine/Ops.lean ====
section
/-! DEFINITION. The named operations over the state that every meaning is written with: the
primitives of spec/00_scope.md rule R8, the stack primitives of spec/43_stack.md, the events of
spec/60_exceptions.md (a halt, a fault) and the fetch of spec/30_encoding.md rule R53. -/

namespace Sys2Proof.Machine

/-! ### Memory (rules R27 and R28) -/

/-- The byte at an address of the list, 0x00 where the address is not listed. -/
def Memory.lookup : Memory → Nat → Byte
  | [], _ => 0
  | (k, v) :: rest, a => if k = a then v else Memory.lookup rest a

/-- `MemRead(addr, 1)` (rule R28). A byte is an address; there is none outside 0x00 to 0xFF. -/
def Memory.read (m : Memory) (a : Byte) : Byte := m.lookup a.toNat

/-- The list without the address. -/
def Memory.erase (m : Memory) (a : Nat) : Memory := m.filter (fun c => c.1 != a)

/-- The list with a byte put at an address, at its place in the rising order. -/
def Memory.insert : Memory → Nat → Byte → Memory
  | [], a, v => [(a, v)]
  | (k, w) :: rest, a, v =>
    if a < k then (a, v) :: (k, w) :: rest
    else if a = k then (a, v) :: rest
    else (k, w) :: Memory.insert rest a v

/-- `MemWrite(addr, 1, v)` (rule R28): writing what an unlisted address reads as takes the entry
out of the list, so that equal memories are equal lists. -/
def Memory.write (m : Memory) (a v : Byte) : Memory :=
  if v = 0 then m.erase a.toNat else m.insert a.toNat v

/-- Bytes put at rising addresses from `a` on, each address taken modulo 256. -/
def Memory.writeBytes (m : Memory) (a : Byte) : List Byte → Memory
  | [] => m
  | v :: rest => Memory.writeBytes (m.write a v) (a + 1) rest

def State.memRead (s : State) (a : Byte) : Byte := s.mem.read a

def State.memWrite (s : State) (a v : Byte) : State := { s with mem := s.mem.write a v }

/-! ### Registers, PC and FL (rules R8, R10, R11) -/

/-- `x[r]`. No register is hard-wired (rule R10). -/
def State.reg (s : State) (r : RegIdx) : Byte := s.regs[r.val]

/-- `x[r] <- v`. -/
def State.setReg (s : State) (r : RegIdx) (v : Byte) : State :=
  { s with regs := s.regs.set r.val v }

/-- SP is register 7 (rule R11). -/
def State.sp (s : State) : Byte := s.reg Config.spIndex

/-- `pc <- target` (rule R18: a byte, so taken modulo 256). -/
def State.setPc (s : State) (target : Byte) : State := { s with pc := target }

/-- `pc <- pc + len`, modulo 256 (rule R64). -/
def State.advance (s : State) (len : Byte) : State := s.setPc (s.pc + len)

/-- `FL <- v`. -/
def State.setFl (s : State) (v : Byte) : State := { s with fl := v }

/-! ### Output (rule R112) -/

/-- `emit(e)`: append an event to the output log. -/
def State.emit (s : State) (e : Event) : State := { s with out := s.out ++ [e] }

/-! ### Events that end a run (rules R104 to R110) -/

/-- `halt(cause)`: the run state becomes HALTED and nothing else changes. -/
def State.halt (s : State) (c : HaltCause) : State := { s with run := .halted c }

/-- `raise Fault(cause, {pc, ir, a, b})` (rule R106): the run state becomes FAULTED with the fault
record, of the instruction's address and the three latched bytes, and nothing else changes. This is
all there is to taking a fault; there is no handler and no return from one (rules R113, R114). -/
def State.raiseFault (s : State) (c : FaultCause) : State :=
  { s with run := .faulted ⟨c, s.pc, s.ir, s.opA, s.opB⟩ }

/-- The zero-divisor halt (rules R79 and R105): the diagnostic line first, then HALTED. -/
def State.zeroDivisorHalt (s : State) : State := (s.emit .divZeroDiag).halt .zeroDivisor

/-- DIV by zero under a value of `DIV_ZERO_POLICY` (rule R80). -/
def State.divideByZero (p : Config.DivZeroPolicy) (s : State) : State :=
  match p with
  | .fault => s.raiseFault .divideByZero
  | .modLike => s.zeroDivisorHalt

/-! ### The stack primitives (rules R90 and R91) -/

/-- `push(v)`: decrement SP, then write `v` at the new SP. -/
def State.push (s : State) (v : Byte) : State :=
  (s.setReg Config.spIndex (s.sp - 1)).memWrite (s.sp - 1) v

/-- The byte `pop()` returns: the byte at SP. -/
def State.popValue (s : State) : Byte := s.memRead s.sp

/-- The state `pop()` leaves: SP incremented, the byte not cleared. -/
def State.popState (s : State) : State := s.setReg Config.spIndex (s.sp + 1)

/-! ### Fetch and stall (rules R53 and R62) -/

/-- Fetch: the three bytes at pc, pc+1 and pc+2 go to IR, a and b (rule R53). -/
def State.fetch (s : State) : State :=
  { s with ir := s.memRead s.pc, opA := s.memRead (s.pc + 1), opB := s.memRead (s.pc + 2) }

/-- The step on an undefined opcode: nothing after the fetch, and the core stays RUNNING
(rules R62 and R109). -/
def stall (s : State) : StepResult := .next s

end Sys2Proof.Machine
end

