-- ==== Sys2Proof/Machine/Flags.lean ====
section
/-! DEFINITION. The flag byte FL: its three bits (spec/10_state.md rule R14) and the one flag
computation of the machine, that of CMP (spec/42_alu.md rule R81). -/

namespace Sys2Proof.Machine

/-- FL with only E set: equal. -/
def flagE : Byte := 0x01

/-- FL with only G set: greater, unsigned. -/
def flagG : Byte := 0x02

/-- FL with only L set: less, unsigned. -/
def flagL : Byte := 0x04

/-- FL after CMP, from the two values alone (rule R81). -/
def cmpFlags (va vb : Byte) : Byte :=
  if va = vb then flagE else if vb < va then flagG else flagL

/-- Bit 0 of FL, the only flag an instruction reads (rule R16). -/
def State.flE (s : State) : Bool := s.fl.getLsbD 0

/-- Bit 1 of FL, read by the host only (rule R16). -/
def State.flG (s : State) : Bool := s.fl.getLsbD 1

/-- Bit 2 of FL, read by the host only (rule R16). -/
def State.flL (s : State) : Bool := s.fl.getLsbD 2

end Sys2Proof.Machine
end

