-- ==== Sys2Proof/Machine/Operands.lean ====
section
/-! DEFINITION. The operand forms: a register operand byte with its check (spec/30_encoding.md
rules R56 and R57), made before the instruction changes any state (rule R52). LDI's immediate is
the byte itself (rule R61) and needs no operation. -/

namespace Sys2Proof.Machine

/-- The register an operand byte names, none for a value of 8 or more (rule R56). -/
def regIndex (b : Byte) : Option RegIdx :=
  if h : b.toNat < 8 then some ⟨b.toNat, h⟩ else none

/-- One register operand: checked, then handed to the rest of the instruction. A byte of 8 or more
raises ILLEGAL_REGISTER (rule R108). -/
def withReg (rA : Byte) (s : State) (k : RegIdx → StepResult) : StepResult :=
  match regIndex rA with
  | some a => k a
  | none => .next (s.raiseFault .illegalRegister)

/-- Two register operands, rA checked before rB (rule R110). -/
def withRegs (rA rB : Byte) (s : State) (k : RegIdx → RegIdx → StepResult) : StepResult :=
  withReg rA s (fun a => withReg rB s (fun b => k a b))

end Sys2Proof.Machine
end

