-- ==== Sys2Proof/Machine/Alu.lean ====
section
/-! DEFINITION. The byte ALU (spec/42_alu.md): a pure function of two bytes for each operation, and
the meanings of ADD, SUB, MUL, DIV, MOD, CMP, AND, OR, XOR, NOT, SHL and SHR. -/

namespace Sys2Proof.Machine

/-! ### The pure functions (rule R88) -/

def aluAdd (va vb : Byte) : Byte := va + vb

def aluSub (va vb : Byte) : Byte := va - vb

def aluMul (va vb : Byte) : Byte := va * vb

/-- The floor of the unsigned quotient; used for vb ≠ 0 only (rule R78). -/
def aluDiv (va vb : Byte) : Byte := BitVec.udiv va vb

/-- The unsigned remainder; used for vb ≠ 0 only (rule R79). -/
def aluMod (va vb : Byte) : Byte := BitVec.umod va vb

def aluAnd (va vb : Byte) : Byte := va &&& vb

def aluOr (va vb : Byte) : Byte := va ||| vb

def aluXor (va vb : Byte) : Byte := va ^^^ vb

def aluNot (va : Byte) : Byte := ~~~va

/-- The amount is the whole byte, so the result is 0 from 8 on (rule R86). -/
def aluShl (va vb : Byte) : Byte := va <<< vb.toNat

/-- Logical; the amount is the whole byte, so the result is 0 from 8 on (rule R87). -/
def aluShr (va vb : Byte) : Byte := va >>> vb.toNat

/-! ### The two-register form -/

/-- The effect of a two-register ALU operation (rule R74): both operands are read, then the result
goes to rA, and pc advances by 3. -/
def State.aluResult (s : State) (f : Byte → Byte → Byte) (a b : RegIdx) : State :=
  (s.setReg a (f (s.reg a) (s.reg b))).advance 3

/-! ### The meanings -/

/-- ADD (rule R75). -/
def execAdd (rA rB : Byte) (s : State) : StepResult :=
  withRegs rA rB s fun a b => .next (s.aluResult aluAdd a b)

/-- SUB (rule R76). -/
def execSub (rA rB : Byte) (s : State) : StepResult :=
  withRegs rA rB s fun a b => .next (s.aluResult aluSub a b)

/-- MUL (rule R77). -/
def execMul (rA rB : Byte) (s : State) : StepResult :=
  withRegs rA rB s fun a b => .next (s.aluResult aluMul a b)

/-- DIV (rules R78 and R80). -/
def execDiv (rA rB : Byte) (s : State) : StepResult :=
  withRegs rA rB s fun a b =>
    if s.reg b = 0 then .next (s.divideByZero Config.divZeroPolicy)
    else .next (s.aluResult aluDiv a b)

/-- MOD (rule R79). -/
def execMod (rA rB : Byte) (s : State) : StepResult :=
  withRegs rA rB s fun a b =>
    if s.reg b = 0 then .next s.zeroDivisorHalt
    else .next (s.aluResult aluMod a b)

/-- CMP (rule R81). -/
def execCmp (rA rB : Byte) (s : State) : StepResult :=
  withRegs rA rB s fun a b => .next ((s.setFl (cmpFlags (s.reg a) (s.reg b))).advance 3)

/-- AND (rule R82). -/
def execAnd (rA rB : Byte) (s : State) : StepResult :=
  withRegs rA rB s fun a b => .next (s.aluResult aluAnd a b)

/-- OR (rule R83). -/
def execOr (rA rB : Byte) (s : State) : StepResult :=
  withRegs rA rB s fun a b => .next (s.aluResult aluOr a b)

/-- XOR (rule R84). -/
def execXor (rA rB : Byte) (s : State) : StepResult :=
  withRegs rA rB s fun a b => .next (s.aluResult aluXor a b)

/-- NOT (rule R85): one operand, so pc advances by 2. -/
def execNot (rA : Byte) (s : State) : StepResult :=
  withReg rA s fun a => .next ((s.setReg a (aluNot (s.reg a))).advance 2)

/-- SHL (rule R86). -/
def execShl (rA rB : Byte) (s : State) : StepResult :=
  withRegs rA rB s fun a b => .next (s.aluResult aluShl a b)

/-- SHR (rule R87). -/
def execShr (rA rB : Byte) (s : State) : StepResult :=
  withRegs rA rB s fun a b => .next (s.aluResult aluShr a b)

end Sys2Proof.Machine
end

