-- ==== Sys2Proof/Machine/Control.lean ====
section
/-! DEFINITION. CALL, RET, JMP, JEQ, JNE and HLT (spec/44_control.md). -/

namespace Sys2Proof.Machine

/-- CALL (rule R96): the return address is pc + 2, and the target is read after the push, so
CALL R7 jumps to the new SP. -/
def execCall (rA : Byte) (s : State) : StepResult :=
  withReg rA s fun a =>
    let s1 := s.push (s.pc + 2)
    .next (s1.setPc (s1.reg a))

/-- RET (rule R97). -/
def execRet (s : State) : StepResult := .next (s.popState.setPc s.popValue)

/-- JMP (rule R98). -/
def execJmp (rA : Byte) (s : State) : StepResult :=
  withReg rA s fun a => .next (s.setPc (s.reg a))

/-- JEQ (rule R99). -/
def execJeq (rA : Byte) (s : State) : StepResult :=
  withReg rA s fun a => .next (if s.flE then s.setPc (s.reg a) else s.advance 2)

/-- JNE (rule R100). -/
def execJne (rA : Byte) (s : State) : StepResult :=
  withReg rA s fun a => .next (if s.flE then s.advance 2 else s.setPc (s.reg a))

/-- HLT (rule R101): pc stays at the HLT. -/
def execHlt (s : State) : StepResult := .next (s.halt .hlt)

end Sys2Proof.Machine
end

