-- ==== Sys2Proof/Machine/DataIo.lean ====
section
/-! DEFINITION. LDI and PRN (spec/41_data_io.md). -/

namespace Sys2Proof.Machine

/-- LDI (rule R72). -/
def execLdi (rA imm : Byte) (s : State) : StepResult :=
  withReg rA s fun a => .next ((s.setReg a imm).advance 3)

/-- PRN (rule R73). -/
def execPrn (rA : Byte) (s : State) : StepResult :=
  withReg rA s fun a => .next ((s.emit (.num (s.reg a))).advance 2)

end Sys2Proof.Machine
end

