-- ==== Sys2Proof/Machine/Stack.lean ====
section
/-! DEFINITION. PUSH and POP (spec/43_stack.md). -/

namespace Sys2Proof.Machine

/-- PUSH (rule R92): the value is read before SP changes, so PUSH R7 pushes the old SP. -/
def execPush (rA : Byte) (s : State) : StepResult :=
  withReg rA s fun a => .next ((s.push (s.reg a)).advance 2)

/-- POP (rule R93): rA is written after SP, so POP R7 leaves the popped byte in SP. -/
def execPop (rA : Byte) (s : State) : StepResult :=
  withReg rA s fun a => .next ((s.popState.setReg a s.popValue).advance 2)

end Sys2Proof.Machine
end

