-- ==== Sys2Proof/Machine/Step.lean ====
section
/-! DEFINITION. One step (spec/30_encoding.md rule R52), and the placing of an instruction where
the next step fetches it. -/

namespace Sys2Proof.Machine

/-- One step: in RUNNING, fetch three bytes, decode, and execute the instruction, or stall where the
opcode byte is undefined. In HALTED and FAULTED no step is taken (rules R19 and R52). -/
def step (s : State) : Host.Outcome State Fault Refusal :=
  match s.run with
  | .running =>
    match decode s.fetch.ir s.fetch.opA s.fetch.opB with
    | .ok i => exec i s.fetch
    | .error _ => stall s.fetch
  | .halted c => .fault (.notRunningHalted c)
  | .faulted r => .fault (.notRunningFaulted r)

/-- The state with an instruction's bytes, numbered as spec/opcode_table.json numbers them, at pc,
pc+1 and pc+2, and RUNNING, so that the next step fetches and runs exactly it (log entry 4). -/
def State.withFetchWord (s : State) (nbits w : Nat) : State :=
  { s with
    run := .running
    mem := s.mem.writeBytes s.pc
      [tableByte nbits w 0, tableByte nbits w 1, tableByte nbits w 2] }

end Sys2Proof.Machine
end

