-- ==== Sys2Proof/Machine/HostPort.lean ====
section
/-! DEFINITION. What the host can do to the core and read from it (spec/60_exceptions.md rule
R118): reset, load, the end state, and the text of an output line (rule R112). Stopping a run is
asking for no further step and has no effect (spec/70_reset_and_hazards.md rule R129); the host has
no move that writes memory or registers while the core is RUNNING. -/

namespace Sys2Proof.Machine

/-- Reset, at any time and the only way out of HALTED and FAULTED (rules R118 and R123). Nothing of
the old state is left (rule R119). -/
def State.hostReset (_old : State) : State := State.reset

/-- Load after reset and before the first step (rule R120): the image at addresses 0 on, every other
byte at its reset value; an image of more than 256 bytes is refused. -/
def State.load (image : List Byte) : StepResult :=
  if image.length ≤ Config.memSize then
    .next { State.reset with mem := Memory.writeBytes [] 0 image }
  else .refused (.imageTooLarge image.length)

/-- What the host reads at the end of a run (rule R118). -/
structure EndState where
  regs : Vector Byte 8
  fl : Byte
  pc : Byte
  mem : Memory
  run : RunState
  deriving DecidableEq, Repr

/-- The end state can be read in HALTED and FAULTED; a RUNNING core has none (rules R118, R128). -/
def State.endState (s : State) : Option EndState :=
  match s.run with
  | .running => none
  | .halted _ => some ⟨s.regs, s.fl, s.pc, s.mem, s.run⟩
  | .faulted _ => some ⟨s.regs, s.fl, s.pc, s.mem, s.run⟩

/-- The unsigned decimal digits of a byte, no sign and no leading zeros (rules R73 and R112). -/
def decimalDigits (v : Byte) : List Char :=
  let n := v.toNat
  if n < 10 then [Nat.digitChar n]
  else if n < 100 then [Nat.digitChar (n / 10), Nat.digitChar (n % 10)]
  else [Nat.digitChar (n / 100), Nat.digitChar (n / 10 % 10), Nat.digitChar (n % 10)]

/-- The line an event prints (rule R112). The texts the spec leaves OPEN are free values (log entry
6). -/
def Event.line : Event → String
  | .num v => String.ofList (decimalDigits v) ++ Config.lineEnd
  | .divZeroDiag => Config.div0Message ++ Config.lineEnd

end Sys2Proof.Machine
end

