-- ==== Sys2Proof/Machine/Ports.lean ====
section
/-! DEFINITION. What a step shows on the ports of the core, as functions of the state it starts in:
the memory transactions in their order (spec/20_memory.md rules R36 and R37), the output events
(rule R112), and the status and event codes (spec/60_exceptions.md rule R104,
spec/92_eei_decisions.md D3). `step` does not depend on any of them. -/

namespace Sys2Proof.Machine

/-! ### The memory port -/

/-- One transaction of the memory port: one byte at one address (rule R30), with the byte read or
written. -/
inductive Transaction where
  | read (addr data : Byte)
  | write (addr data : Byte)
  deriving DecidableEq, Repr

/-- The three reads every step begins with, an undefined byte included (rule R37). -/
def fetchTransactions (s : State) : List Transaction :=
  [.read s.pc (s.memRead s.pc), .read (s.pc + 1) (s.memRead (s.pc + 1)),
    .read (s.pc + 2) (s.memRead (s.pc + 2))]

/-- The transaction of `push(v)`: a write at the decremented SP (rule R90). -/
def pushTransaction (s : State) (v : Byte) : Transaction := .write (s.sp - 1) v

/-- The transaction of `pop()`: a read at SP (rule R91). -/
def popTransaction (s : State) : Transaction := .read s.sp s.popValue

/-- The transactions of an instruction after its fetch; none when a register operand is illegal
(rule R37). -/
def dataTransactions (i : Instr) (s : State) : List Transaction :=
  match i with
  | .push rA => ((regIndex rA).map fun a => pushTransaction s (s.reg a)).toList
  | .call rA => ((regIndex rA).map fun _ => pushTransaction s (s.pc + 2)).toList
  | .pop rA => ((regIndex rA).map fun _ => popTransaction s).toList
  | .ret => [popTransaction s]
  | .hlt => []
  | .prn _ => []
  | .jmp _ => []
  | .jeq _ => []
  | .jne _ => []
  | .not _ => []
  | .ldi _ _ => []
  | .add _ _ => []
  | .sub _ _ => []
  | .mul _ _ => []
  | .div _ _ => []
  | .mod _ _ => []
  | .cmp _ _ => []
  | .and _ _ => []
  | .or _ _ => []
  | .xor _ _ => []
  | .shl _ _ => []
  | .shr _ _ => []

/-- The transactions of the next step, in order; none outside RUNNING (rule R37). -/
def stepTransactions (s : State) : List Transaction :=
  match s.run with
  | .running =>
    fetchTransactions s ++
      match decode s.fetch.ir s.fetch.opA s.fetch.opB with
      | .ok i => dataTransactions i s.fetch
      | .error _ => []
  | .halted _ => []
  | .faulted _ => []

/-- What a transaction does to memory: a read nothing, a write its byte (rule R28). -/
def Transaction.apply (m : Memory) : Transaction → Memory
  | .read _ _ => m
  | .write a v => m.write a v

/-! ### The output port -/

/-- The events the next step sends to the output sink, in order (rule R112). -/
def stepEvents (s : State) : List Event :=
  match step s with
  | .next t => t.out.drop s.out.length
  | .fault _ => []
  | .refused _ => []

/-- `out_kind`: 0 for Num, 1 for DivZeroDiag (D3). -/
def Event.kindCode : Event → BitVec 1
  | .num _ => 0
  | .divZeroDiag => 1

/-- `out_data`: the PRN value; the spec gives none for DivZeroDiag (D3). -/
def Event.data : Event → Option Byte
  | .num v => some v
  | .divZeroDiag => none

/-! ### The status port -/

/-- The halt cause codes (rule R104). -/
def HaltCause.code : HaltCause → BitVec 2
  | .hlt => 0
  | .zeroDivisor => 1

/-- The fault cause codes (rule R104). -/
def FaultCause.code : FaultCause → BitVec 2
  | .divideByZero => 1
  | .illegalRegister => 2

/-- `run_state` (D3). -/
def RunState.code : RunState → BitVec 2
  | .running => 0
  | .halted _ => 1
  | .faulted _ => 2

/-- `cause` (D3): the halt or fault code of rule R104; the spec gives none in RUNNING. -/
def RunState.causeCode : RunState → Option (BitVec 2)
  | .running => none
  | .halted c => some c.code
  | .faulted r => some r.cause.code

end Sys2Proof.Machine
end

