-- ==== Sys2Proof/Safety.lean ====
section
/-! DEFINITION. What counts as a good state and a good run, and the words the statements are written
in: what an instruction changes and what it leaves. -/

namespace Sys2Proof.Machine

/-! ### Runs -/

/-- A run that ended as it should: HALTED, by HLT or by the zero-divisor halt (rule R128). -/
def State.Completed (s : State) : Prop := ∃ c, s.run = .halted c

/-- A run that failed: FAULTED is no completed run (rules R106 and R128). -/
def State.Failed (s : State) : Prop := ∃ r, s.run = .faulted r

/-- The states a run reaches: a loaded image, then any number of steps. -/
inductive Reachable : State → Prop where
  | load {image : List Byte} {s : State} : State.load image = .next s → Reachable s
  | step {s t : State} : Reachable s → Machine.step s = .next t → Reachable t

/-- From `s`, `k` steps are taken one after another, and the core is in state `t` after them. -/
def RunsTo : Nat → State → State → Prop
  | 0, s, t => s = t
  | k + 1, s, t => ∃ u, Machine.step s = .next u ∧ RunsTo k u t

/-! ### The invariant -/

/-- The values FL may hold: 0x00 after reset, 0x01, 0x02 or 0x04 after a CMP (rule R14). -/
abbrev FlLegal (v : Byte) : Prop := v = 0x00 ∨ v = 0x01 ∨ v = 0x02 ∨ v = 0x04

/-- The instruction the bytes at pc decode to. -/
def State.decodedAtPc (s : State) : Except DecodeReject Instr :=
  decode (s.memRead s.pc) (s.memRead (s.pc + 1)) (s.memRead (s.pc + 2))

/-- A run state that has ended agrees with the machine that ended (rules R101, R104 to R108): a HLT
at pc after `HLT`; a MOD with a zero divisor at pc, and its diagnostic sent last, after
`ZERO_DIVISOR`; and after a fault a record of pc and the three bytes at it, which are a DIV with a
zero divisor, or an instruction with an illegal register. -/
def State.EndAgrees (s : State) : Prop :=
  match s.run with
  | .running => True
  | .halted .hlt => s.decodedAtPc = .ok .hlt
  | .halted .zeroDivisor =>
    (∃ a b : RegIdx, s.decodedAtPc = .ok (.mod a.toByte b.toByte) ∧ s.reg b = 0) ∧
      s.out.getLast? = some .divZeroDiag
  | .faulted r =>
    r.pc = s.pc ∧ r.ir = s.memRead s.pc ∧ r.a = s.memRead (s.pc + 1) ∧
      r.b = s.memRead (s.pc + 2) ∧
      match r.cause with
      | .divideByZero =>
        ∃ a b : RegIdx, decode r.ir r.a r.b = .ok (.div a.toByte b.toByte) ∧ s.reg b = 0
      | .illegalRegister => ∃ i, decode r.ir r.a r.b = .ok i ∧ i.wf = false

/-- The invariant of the machine: memory keeps its canonical form, FL is a legal value, and an
ended run agrees with its record. -/
structure State.Inv (s : State) : Prop where
  memWf : s.mem.Wf
  flLegal : FlLegal s.fl
  endAgrees : s.EndAgrees

/-! ### What an instruction changes -/

/-- Everything but pc, memory and the registers listed is unchanged. -/
structure SameExceptRegs (changed : List RegIdx) (s t : State) : Prop where
  regs : ∀ r, r ∉ changed → t.reg r = s.reg r
  fl : t.fl = s.fl
  run : t.run = s.run
  ir : t.ir = s.ir
  opA : t.opA = s.opA
  opB : t.opB = s.opB
  out : t.out = s.out

/-- Every byte of memory reads as before. -/
def MemSame (s t : State) : Prop := ∀ x, t.memRead x = s.memRead x

/-- Every byte of memory outside one address reads as before. -/
def MemSameExcept (addr : Byte) (s t : State) : Prop := ∀ x, x ≠ addr → t.memRead x = s.memRead x

/-- The instruction runs, writes one register, advances pc, and changes nothing else. -/
def WritesRegister (i : Instr) (s : State) (r : RegIdx) (value : Nat) (len : Nat) : Prop :=
  ∃ t, exec i s = .next t ∧ (t.reg r).toNat = value ∧ t.pc.toNat = (s.pc.toNat + len) % 256 ∧
    SameExceptRegs [r] s t ∧ MemSame s t

/-- The instruction runs, sets pc, and changes nothing else. -/
def OnlySetsPc (i : Instr) (s : State) (target : Byte) : Prop :=
  ∃ t, exec i s = .next t ∧ t.pc = target ∧ SameExceptRegs [] s t ∧ MemSame s t

/-- The state with a fault taken (rule R106): FAULTED with the record of pc and the three latched
bytes, all else as it was. -/
def faultedState (c : FaultCause) (s : State) : State :=
  { s with run := .faulted ⟨c, s.pc, s.ir, s.opA, s.opB⟩ }

/-- The instruction takes the fault ILLEGAL_REGISTER. -/
def RaisesIllegalRegister (i : Instr) (s : State) : Prop :=
  exec i s = .next (faultedState .illegalRegister s)

/-- The bytes are the instruction's, both ways: it encodes to them and they decode to it. The opcode
bytes are the general-knowledge defaults of rule R58 (log entry 1). -/
def HasEncoding (i : Instr) (bytes : List Byte) : Prop :=
  encode i = bytes ∧ ∀ rest, decodeBytes (bytes ++ rest) = .ok (i, rest)

/-- A one-register instruction has its encoding, and faults on an illegal register. -/
def OneRegisterForm (mk : Byte → Instr) (opcode : Byte) : Prop :=
  (∀ rA, HasEncoding (mk rA) [opcode, rA]) ∧
    ∀ (s : State) (rA : Byte), 8 ≤ rA.toNat → RaisesIllegalRegister (mk rA) s

/-- A two-register instruction has its encoding, and faults if either register is illegal. -/
def TwoRegisterForm (mk : Byte → Byte → Instr) (opcode : Byte) : Prop :=
  (∀ rA rB, HasEncoding (mk rA rB) [opcode, rA, rB]) ∧
    ∀ (s : State) (rA rB : Byte), 8 ≤ rA.toNat ∨ 8 ≤ rB.toNat → RaisesIllegalRegister (mk rA rB) s

/-- A two-register ALU operation with a result for every pair of values: its form, and the result
in rA for every legal pair of registers, the same register twice included. -/
def AluRule (mk : Byte → Byte → Instr) (opcode : Byte) (f : Nat → Nat → Nat) : Prop :=
  TwoRegisterForm mk opcode ∧
    ∀ (s : State) (a b : RegIdx),
      WritesRegister (mk a.toByte b.toByte) s a (f (s.reg a).toNat (s.reg b).toNat) 3

/-! ### Words of the whole-machine statements -/

/-- The register a legal operand byte names (rule R56); of no meaning for a byte of 8 or more. -/
def regOfByte (b : Byte) : RegIdx := ⟨b.toNat % 8, Nat.mod_lt _ (by decide)⟩

/-- The target a well-formed instruction writes to pc in a state, none if it writes none: CALL, RET,
JMP, a taken JEQ and a taken JNE have one (rules R64 and R95). CALL's is read after its push. -/
def targetOf (i : Instr) (s : State) : Option Byte :=
  match i with
  | .call rA => some ((s.push (s.pc + 2)).reg (regOfByte rA))
  | .ret => some (s.memRead s.sp)
  | .jmp rA => some (s.reg (regOfByte rA))
  | .jeq rA => if s.fl.getLsbD 0 then some (s.reg (regOfByte rA)) else none
  | .jne rA => if s.fl.getLsbD 0 then none else some (s.reg (regOfByte rA))
  | .hlt => none
  | .push _ => none
  | .pop _ => none
  | .prn _ => none
  | .not _ => none
  | .ldi _ _ => none
  | .add _ _ => none
  | .sub _ _ => none
  | .mul _ _ => none
  | .div _ _ => none
  | .mod _ _ => none
  | .cmp _ _ => none
  | .and _ _ => none
  | .or _ _ => none
  | .xor _ _ => none
  | .shl _ _ => none
  | .shr _ _ => none

/-- The operand bytes of the registers an instruction may write, SP written as 7 where a stack
primitive writes it (the `w` entries of rule R13). -/
def writtenRegs : Instr → List Byte
  | .hlt => []
  | .ret => [7]
  | .push _ => [7]
  | .pop rA => [rA, 7]
  | .prn _ => []
  | .call _ => [7]
  | .jmp _ => []
  | .jeq _ => []
  | .jne _ => []
  | .not rA => [rA]
  | .ldi rA _ => [rA]
  | .add rA _ => [rA]
  | .sub rA _ => [rA]
  | .mul rA _ => [rA]
  | .div rA _ => [rA]
  | .mod rA _ => [rA]
  | .cmp _ _ => []
  | .and rA _ => [rA]
  | .or rA _ => [rA]
  | .xor rA _ => [rA]
  | .shl rA _ => [rA]
  | .shr rA _ => [rA]

/-- The instruction is a DIV or a MOD whose divisor is zero in the state. -/
def ZeroDivisor (i : Instr) (s : State) : Prop :=
  ∃ a b : RegIdx, (i = .div a.toByte b.toByte ∨ i = .mod a.toByte b.toByte) ∧ s.reg b = 0

/-- The state after the fetch of a step: IR, a and b hold the bytes at pc, pc+1 and pc+2 (rule R53),
all else as it was. -/
def latchedState (s : State) : State :=
  { s with ir := s.memRead s.pc, opA := s.memRead (s.pc + 1), opB := s.memRead (s.pc + 2) }

end Sys2Proof.Machine
end

