-- ==== Sys2Proof/Certificates/Slice0/Obligations.lean ====
section
/-! DEFINITION. The statements for the provers. A statement about an instruction is for every state,
its run state, latches, FL and memory included, and for every register its operands can name. -/

open Sys2Proof Sys2Proof.Machine

/-! ### Encoding and decoding -/

/-- The default opcode table, which is general knowledge (PRESUMED), meets the constraints of rule
R59 on any opcode assignment. It rests on log entry 1. -/
def Obligations.OpcodeTableMeetsConstraints : Prop :=
  (∀ o p : Opcode, opcodeByte o = opcodeByte p → o = p) ∧
    (∀ o : Opcode, operandCount (opcodeByte o) = o.format.operands) ∧
    ∀ o : Opcode, operandCount (opcodeByte o) ≠ 3

/-- Words written out from the encodings of rule R58, at least one of each family, decode to the
instructions they stand for. The opcode bytes are the spec's general-knowledge defaults (log entry
1). -/
def Obligations.WrittenOutWordsDecode : Prop :=
  decode 0b10000010 0b00000011 0b11111111 = .ok (.ldi 3 255) ∧
    decode 0b01000111 0b00000111 0b11101110 = .ok (.prn 7) ∧
    decode 0b10100001 0b00000101 0b00000010 = .ok (.sub 5 2) ∧
    decode 0b10101101 0b00000000 0b00000001 = .ok (.shr 0 1) ∧
    decode 0b01101001 0b00000100 0b00000000 = .ok (.not 4) ∧
    decode 0b01000110 0b00000010 0b00000000 = .ok (.pop 2) ∧
    decode 0b01010000 0b00000001 0b01000111 = .ok (.call 1) ∧
    decode 0b01010110 0b00000011 0b00000001 = .ok (.jne 3) ∧
    decode 0b00010001 0b00001001 0b00001001 = .ok .ret ∧
    decode 0b00000000 0b00000000 0b00000000 = .error (.undefinedOpcode 0) ∧
    decode 0b11000000 0b00000000 0b00000000 = .error (.undefinedOpcode 0xC0)

/-- Decoding and encoding are inverse under every legal opcode assignment: a byte list decodes to
an instruction and a rest exactly when it is the instruction's encoding and that rest. Every
operand byte is at every value, illegal registers included. -/
def Obligations.DecodingInvertsEncoding : Prop :=
  ∀ ob : OpcodeAssignment, ob.Legal → ∀ (bs rest : List Byte) (i : Instr),
    decodeBytesWith ob bs = .ok (i, rest) ↔ bs = encodeWith ob i ++ rest

/-- A step reads the bytes at pc, pc+1 and pc+2, each address modulo 256, first and in this order,
and latches them, whatever the byte at pc is; and an operand byte the instruction does not have has
no part in what is decoded. The reads and latches are rule R53's; that the latches keep the fetched
bytes after a stall and a fault too is DEDUCED. It rests on log entry 15. -/
def Obligations.FetchLatchesThreeBytes : Prop :=
  (∀ s t : State, s.run = .running → step s = .next t →
      t.ir = s.memRead (BitVec.ofNat 8 s.pc.toNat) ∧
      t.opA = s.memRead (BitVec.ofNat 8 ((s.pc.toNat + 1) % 256)) ∧
      t.opB = s.memRead (BitVec.ofNat 8 ((s.pc.toNat + 2) % 256)) ∧
      [.read s.pc t.ir, .read (s.pc + 1) t.opA, .read (s.pc + 2) t.opB] <+: stepTransactions s) ∧
    ∀ ir a b a' b' : Byte,
      (operandCount ir ≤ 1 → decode ir a b = decode ir a b') ∧
      (operandCount ir = 0 → decode ir a b = decode ir a' b')

/-- Exactly the bytes outside the opcode table are rejected, each by its own name, whatever the
operand bytes; under the default table they are 234, 0x00 among them. It rests on log entry 1. -/
def Obligations.UndefinedBytesAreRejected : Prop :=
  (∀ (ob : OpcodeAssignment) (ir a b : Byte) (r : DecodeReject),
      decodeWith ob ir a b = .error r ↔ r = .undefinedOpcode ir ∧ ∀ o, ob o ≠ ir) ∧
    (∀ o, opcodeByte o ≠ 0x00) ∧
    ((List.range 256).filter
      fun k => (decodeOpcodeWith opcodeByte (BitVec.ofNat 8 k)).isNone).length = 234

/-! ### The step -/

/-- In RUNNING, where the bytes at pc decode to an instruction, the step is that instruction's
meaning, on the state with the three bytes latched. It rests on log entry 19. -/
def Obligations.StepRunsDecodedInstruction : Prop :=
  ∀ (s : State) (i : Instr), s.run = .running →
    decode (s.memRead s.pc) (s.memRead (s.pc + 1)) (s.memRead (s.pc + 2)) = .ok i →
    step s = exec i (latchedState s)

/-- In RUNNING, where memory holds an instruction's encoding from pc on, the step is that
instruction's meaning: what the bytes after the encoding are does not matter. It rests on log
entries 1 and 19. -/
def Obligations.StepRunsEncodedInstruction : Prop :=
  ∀ (s : State) (i : Instr), s.run = .running →
    (∀ k, (h : k < (encode i).length) → s.memRead (s.pc + BitVec.ofNat 8 k) = (encode i)[k]) →
    step s = exec i (latchedState s)

/-- The order of the checks in a step: an undefined opcode stalls; then an illegal register faults;
then a zero divisor faults DIV and halts MOD; otherwise the instruction executes, and the core is
still RUNNING unless it was HLT. The order is the spec's own decision D13, the faults D5 and D7;
that the latches hold the fetched bytes after a stall and a fault is DEDUCED (log entry 15). It
rests on log entries 5, 7, 11 and 15. -/
def Obligations.StepChecksInOrder : Prop :=
  ∀ s : State, s.run = .running →
    (∀ r, s.decodedAtPc = .error r → step s = .next (latchedState s)) ∧
    (∀ i, s.decodedAtPc = .ok i → i.wf = false →
      step s = .next (faultedState .illegalRegister (latchedState s))) ∧
    (∀ a b : RegIdx, s.decodedAtPc = .ok (.div a.toByte b.toByte) → s.reg b = 0 →
      step s = .next (faultedState .divideByZero (latchedState s))) ∧
    (∀ a b : RegIdx, s.decodedAtPc = .ok (.mod a.toByte b.toByte) → s.reg b = 0 →
      step s = .next { latchedState s with
        out := s.out ++ [.divZeroDiag], run := .halted .zeroDivisor }) ∧
    ∀ i, s.decodedAtPc = .ok i → i.wf = true → ¬ ZeroDivisor i s →
      ∃ t, step s = .next t ∧ t.run = if i = .hlt then .halted .hlt else .running

/-- Every instruction, on every operand bytes and in every state, answers a next state: none ends
in a stop of the model. That a fault of the spec (decisions D5 and D7) is a next state is the
model's choice. It rests on log entries 3, 5, 7 and 19. -/
def Obligations.EveryInstructionAnswers : Prop :=
  ∀ (i : Instr) (s : State), ∃ t, exec i s = .next t

/-- On an undefined byte nothing but the latches of the fetch changes, the fetch reads are the only
transactions, and so it stays, step after step, for ever in RUNNING; 0x00 is undefined. It rests on
rule R62, which keeps the stall by the spec's own decision D20; on log entry 15 (DEDUCED) for the
latches, which hold the fetched bytes after a stall; and on log entry 1 (PRESUMED) for 0x00, which
is in no row of the general-knowledge table. -/
def Obligations.UndefinedOpcodeStallsForEver : Prop :=
  (∀ s : State, s.run = .running → (∀ o : Opcode, opcodeByte o ≠ s.memRead s.pc) →
    stepTransactions s = fetchTransactions s ∧
    ∀ k : Nat, RunsTo (k + 1) s (latchedState s) ∧ (latchedState s).run = .running) ∧
    ∀ o : Opcode, opcodeByte o ≠ 0x00

/-- A JMP to its own address repeats for ever in RUNNING and changes nothing but the latches. -/
def Obligations.JumpToItselfNeverEnds : Prop :=
  ∀ (s : State) (r : RegIdx), s.run = .running → s.decodedAtPc = .ok (.jmp r.toByte) →
    s.reg r = s.pc → ∀ k : Nat, RunsTo (k + 1) s (latchedState s)

/-- HALTED and FAULTED are terminal: no step is taken, the host can read the end state there and
nowhere else, and reset leaves nothing of it (decision D15). That no step is written as an outcome
`fault` and that reset is a function of the host are the model's choices. It rests on log entries
2, 3, 12 and 14. -/
def Obligations.EndedRunsAreTerminal : Prop :=
  (∀ (s : State) (c : HaltCause), s.run = .halted c →
      step s = .fault (.notRunningHalted c) ∧
      s.endState = some ⟨s.regs, s.fl, s.pc, s.mem, .halted c⟩) ∧
    (∀ (s : State) (r : FaultRecord), s.run = .faulted r →
      step s = .fault (.notRunningFaulted r) ∧
      s.endState = some ⟨s.regs, s.fl, s.pc, s.mem, .faulted r⟩) ∧
    (∀ s : State, s.run = .running → s.endState = none) ∧
    ∀ s : State, s.hostReset = State.reset

/-- What the latches hold between steps is not observable: a step overwrites them before it reads
them. -/
def Obligations.StepIgnoresOldLatches : Prop :=
  ∀ (s : State) (x y z : Byte), s.run = .running →
    step { s with ir := x, opA := y, opB := z } = step s

/-- The core never reads the output log: with another log the same step answers the same state, and
appends to it the same events, at most one. It rests on log entry 16. -/
def Obligations.OutputLogIsNeverRead : Prop :=
  ∀ s t : State, step s = .next t → ∃ es : List Event,
    es.length ≤ 1 ∧ t.out = s.out ++ es ∧ stepEvents s = es ∧
    ∀ log : List Event, step { s with out := log } = .next { t with out := log ++ es }

/-! ### The instructions

The opcode bytes named here are the defaults of rule R58, from general knowledge (log entry 1). -/

/-- LDI: its encoding, its fault on an illegal register (decision D5), and its effect: the register
named takes the immediate, R7 included, and nothing but pc changes beside it. It rests on log
entries 1 and 7. -/
def Obligations.LdiLoadsImmediate : Prop :=
  (∀ rA imm : Byte, HasEncoding (.ldi rA imm) [0x82, rA, imm]) ∧
    (∀ (s : State) (rA imm : Byte), 8 ≤ rA.toNat → RaisesIllegalRegister (.ldi rA imm) s) ∧
    ∀ (s : State) (a : RegIdx) (imm : Byte), WritesRegister (.ldi a.toByte imm) s a imm.toNat 3

/-- PRN: its encoding, its fault on an illegal register (decision D5), and its effect: the event
Num(x[rA]) is appended to the log, and nothing but pc changes beside it. It rests on log entries 1
and 7. -/
def Obligations.PrnEmitsRegister : Prop :=
  OneRegisterForm .prn 0x47 ∧ ∀ (s : State) (a : RegIdx), ∃ t,
    exec (.prn a.toByte) s = .next t ∧ t.out = s.out ++ [.num (s.reg a)] ∧
    t.pc.toNat = (s.pc.toNat + 2) % 256 ∧
    SameExceptRegs [] { s with out := s.out ++ [.num (s.reg a)] } t ∧ MemSame s t

/-- ADD, SUB and MUL: their encodings, their fault on an illegal register (decision D5), and their
results modulo 256 in rA, with FL, rB ≠ rA and all else but pc unchanged. One register named twice
is read before it is written (conflict C4). It rests on log entries 1, 7 and 21. -/
def Obligations.AddSubMulWrap : Prop :=
  AluRule .add 0xA0 (fun a b => (a + b) % 256) ∧
    AluRule .sub 0xA1 (fun a b => (a + 256 - b) % 256) ∧
    AluRule .mul 0xA2 (fun a b => (a * b) % 256)

/-- DIV: the floor of the quotient where the divisor is not zero, which rule R78 marks as derived;
where it is zero, the fault DIVIDE_BY_ZERO with nothing else changed (decision D7). An illegal
register faults (decision D5); one register named twice is read before it is written (conflict C4).
It rests on log entries 1, 5, 7 and 21. -/
def Obligations.DivGivesFloorOrFaults : Prop :=
  TwoRegisterForm .div 0xA3 ∧
    (∀ (s : State) (a b : RegIdx), s.reg b ≠ 0 →
      WritesRegister (.div a.toByte b.toByte) s a ((s.reg a).toNat / (s.reg b).toNat) 3) ∧
    ∀ (s : State) (a b : RegIdx), s.reg b = 0 →
      exec (.div a.toByte b.toByte) s = .next (faultedState .divideByZero s)

/-- MOD: the remainder where the divisor is not zero; where it is zero, the diagnostic line is sent
and the core is HALTED with cause ZERO_DIVISOR, pc and every register unchanged. An illegal
register faults (decision D5); one register named twice is read before it is written (conflict C4).
It rests on log entries 1, 7 and 21. -/
def Obligations.ModGivesRemainderOrHalts : Prop :=
  TwoRegisterForm .mod 0xA4 ∧
    (∀ (s : State) (a b : RegIdx), s.reg b ≠ 0 →
      WritesRegister (.mod a.toByte b.toByte) s a ((s.reg a).toNat % (s.reg b).toNat) 3) ∧
    ∀ (s : State) (a b : RegIdx), s.reg b = 0 →
      exec (.mod a.toByte b.toByte) s =
        .next { s with out := s.out ++ [.divZeroDiag], run := .halted .zeroDivisor }

/-- The two values of `DIV_ZERO_POLICY`: `fault`, this hardware's, raises DIVIDE_BY_ZERO;
`mod_like` is the zero-divisor path of MOD. Both are the spec's own decision D7. It rests on log
entry 5. -/
def Obligations.DivZeroPolicyValues : Prop :=
  Config.divZeroPolicy = .fault ∧ ∀ s : State,
    s.divideByZero .fault = faultedState .divideByZero s ∧
    ∀ a b : RegIdx, s.reg b = 0 →
      exec (.mod a.toByte b.toByte) s = .next (s.divideByZero .modLike)

/-- CMP: FL is replaced whole by E, G or L in the unsigned order, whatever it was, and nothing but
pc changes beside it. It rests on log entries 1 and 7. -/
def Obligations.CmpSetsOneFlag : Prop :=
  TwoRegisterForm .cmp 0xA7 ∧ ∀ (s : State) (a b : RegIdx), ∃ t,
    exec (.cmp a.toByte b.toByte) s = .next t ∧
    t.fl = (if (s.reg a).toNat = (s.reg b).toNat then 0x01
      else if (s.reg a).toNat > (s.reg b).toNat then 0x02 else 0x04) ∧
    t.pc.toNat = (s.pc.toNat + 3) % 256 ∧
    SameExceptRegs [] { s with fl := t.fl } t ∧ MemSame s t

/-- AND, OR and XOR: bit by bit, in rA, with all else but pc unchanged. An illegal register faults
(decision D5); one register named twice is read before it is written (conflict C4). It rests on log
entries 1, 7 and 21. -/
def Obligations.AndOrXorAreBitwise : Prop :=
  AluRule .and 0xA8 (fun a b => a &&& b) ∧ AluRule .or 0xAA (fun a b => a ||| b) ∧
    AluRule .xor 0xAB (fun a b => a ^^^ b)

/-- NOT: 255 minus the value, in the one register it names; pc advances by 2. It rests on log
entries 1 and 7. -/
def Obligations.NotComplements : Prop :=
  OneRegisterForm .not 0x69 ∧ ∀ (s : State) (a : RegIdx),
    WritesRegister (.not a.toByte) s a (255 - (s.reg a).toNat) 2

/-- SHL and SHR: the amount is the whole byte, SHR is logical, and an amount of 8 or more gives 0
(decision D10). An illegal register faults (decision D5); one register named twice is read before
it is written (conflict C4). It rests on log entries 1, 7, 8 and 21. -/
def Obligations.ShiftsByWholeByte : Prop :=
  AluRule .shl 0xAC (fun a b => (a * 2 ^ b) % 256) ∧ AluRule .shr 0xAD (fun a b => a / 2 ^ b) ∧
    ∀ (s : State) (a b : RegIdx), 8 ≤ (s.reg b).toNat →
      WritesRegister (.shl a.toByte b.toByte) s a 0 3 ∧
      WritesRegister (.shr a.toByte b.toByte) s a 0 3

/-- PUSH: the register's old value at the decremented SP; no other byte, no register but SP, and
nothing but pc beside them changes. That PUSH R7 stores the old SP is DEDUCED: rule R90 marks it as
derived. An illegal register faults (decision D5). It rests on log entries 1, 7 and 21. -/
def Obligations.PushStoresBelowSp : Prop :=
  OneRegisterForm .push 0x45 ∧ ∀ (s : State) (a : RegIdx), ∃ t,
    exec (.push a.toByte) s = .next t ∧ t.sp = s.sp - 1 ∧ t.memRead (s.sp - 1) = s.reg a ∧
    t.pc.toNat = (s.pc.toNat + 2) % 256 ∧
    SameExceptRegs [7] s t ∧ MemSameExcept (s.sp - 1) s t

/-- POP: the byte at SP, in the register named; SP incremented unless it is that register; memory
and all else but pc unchanged. That POP R7 leaves the popped byte in SP is DEDUCED: rule R93 marks
it as derived. An illegal register faults (decision D5). It rests on log entries 1, 7 and 21. -/
def Obligations.PopLoadsFromSp : Prop :=
  OneRegisterForm .pop 0x46 ∧ ∀ (s : State) (a : RegIdx), ∃ t,
    exec (.pop a.toByte) s = .next t ∧ t.reg a = s.memRead s.sp ∧ (a ≠ 7 → t.sp = s.sp + 1) ∧
    t.pc.toNat = (s.pc.toNat + 2) % 256 ∧ SameExceptRegs [a, 7] s t ∧ MemSame s t

/-- CALL: the address after it at the decremented SP, and pc at the register's value read after the
push, so the new SP for R7; no other byte and no register but SP changes. That CALL R7 jumps to the
new SP is DEDUCED, as rule R96 marks it derived, and so is the return address pc + 2 (conflict C1).
An illegal register faults (decision D5). It rests on log entries 1, 7 and 21. -/
def Obligations.CallPushesReturnAddress : Prop :=
  OneRegisterForm .call 0x50 ∧ ∀ (s : State) (a : RegIdx), ∃ t,
    exec (.call a.toByte) s = .next t ∧ t.sp = s.sp - 1 ∧
    (t.memRead (s.sp - 1)).toNat = (s.pc.toNat + 2) % 256 ∧
    t.pc = (if a = 7 then s.sp - 1 else s.reg a) ∧
    SameExceptRegs [7] s t ∧ MemSameExcept (s.sp - 1) s t

/-- RET: pc at the byte at SP, SP incremented, and nothing else. It rests on log entry 1. -/
def Obligations.RetPopsPc : Prop :=
  HasEncoding .ret [0x11] ∧ ∀ s : State, ∃ t,
    exec .ret s = .next t ∧ t.pc = s.memRead s.sp ∧ t.sp = s.sp + 1 ∧
    SameExceptRegs [7] s t ∧ MemSame s t

/-- JMP: pc at the register's value, and nothing else. It rests on log entries 1 and 7. -/
def Obligations.JmpSetsPc : Prop :=
  OneRegisterForm .jmp 0x54 ∧ ∀ (s : State) (a : RegIdx), OnlySetsPc (.jmp a.toByte) s (s.reg a)

/-- JEQ and JNE: pc at the register's value where FL bit 0 is 1 (JEQ) or 0 (JNE), else at the next
instruction; nothing else. An illegal register faults whether or not the branch is taken (decision
D6). It rests on log entries 1 and 7. -/
def Obligations.JeqJneBranchOnFlagE : Prop :=
  OneRegisterForm .jeq 0x55 ∧ OneRegisterForm .jne 0x56 ∧ ∀ (s : State) (a : RegIdx),
    OnlySetsPc (.jeq a.toByte) s (if s.fl.getLsbD 0 then s.reg a else s.pc + 2) ∧
    OnlySetsPc (.jne a.toByte) s (if s.fl.getLsbD 0 then s.pc + 2 else s.reg a)

/-- HLT: the core is HALTED with cause HLT, and nothing else changes, pc included (decision D11).
It rests on log entries 1 and 9. -/
def Obligations.HltHalts : Prop :=
  HasEncoding .hlt [0x01] ∧ ∀ s : State, exec .hlt s = .next { s with run := .halted .hlt }

/-! ### Rules of the whole machine -/

/-- An instruction with an illegal register faults, before it changes anything: every instruction
with a register operand, for every operand byte of 8 or more (decisions D5 and D6). It rests on log
entry 7. -/
def Obligations.IllegalRegisterFaults : Prop :=
  ∀ (i : Instr) (s : State), (∃ b ∈ i.regOperands, 8 ≤ b.toNat) → RaisesIllegalRegister i s

/-- A fault taken by a step has no effect but the run state and the latches: its record is the
faulting instruction's address and its three bytes in memory, and registers, FL, memory, pc and log
are as before. FAULTED and its record are the spec's own decision D12; that the latches hold the
fetched bytes after the fault is DEDUCED (log entry 15). It rests on log entries 5, 7, 15 and 19.
-/
def Obligations.FaultsHaveNoEffect : Prop :=
  ∀ (s t : State) (r : FaultRecord), step s = .next t → t.run = .faulted r →
    t = { latchedState s with run := .faulted r } ∧ r.pc = s.pc ∧ r.ir = s.memRead s.pc ∧
    r.a = s.memRead (s.pc + 1) ∧ r.b = s.memRead (s.pc + 2)

/-- Rule R15: only CMP writes FL, and it writes it whole: the old FL has no part in the new one. -/
def Obligations.OnlyCmpWritesFl : Prop :=
  (∀ (i : Instr) (s t : State), (∀ rA rB, i ≠ .cmp rA rB) → exec i s = .next t → t.fl = s.fl) ∧
    ∀ (s : State) (a b : RegIdx) (v : Byte), ∃ t,
      exec (.cmp a.toByte b.toByte) s = .next t ∧
      exec (.cmp a.toByte b.toByte) { s with fl := v } = .next t

/-- Rule R16: no instruction but JEQ and JNE reads FL, so another FL changes nothing but FL; those
two read bit 0 only; and the host sees FL at the end of a run. -/
def Obligations.OnlyJeqJneReadFl : Prop :=
  (∀ (i : Instr) (s t : State) (v : Byte), (∀ rA, i ≠ .jeq rA ∧ i ≠ .jne rA) →
      exec i s = .next t → ∃ w, exec i { s with fl := v } = .next { t with fl := w }) ∧
    (∀ (i : Instr) (s t : State) (v : Byte), v.getLsbD 0 = s.fl.getLsbD 0 →
      exec i s = .next t → ∃ w, exec i { s with fl := v } = .next { t with fl := w }) ∧
    ∀ (s : State) (e : EndState), s.endState = some e → e.fl = s.fl

/-- In a step that leaves the core RUNNING, pc takes the target of CALL, RET, JMP, a taken JEQ or a
taken JNE, and advances by the length of any other instruction, modulo 256; HLT, a zero divisor, an
undefined byte and a fault leave it unchanged. It rests on rules R64 and R95, and on the spec's own
decisions: D11 (log entry 9, DESIGN CHOICE) for pc after HLT, D5 (log entry 7) and D7 (log entry 5)
for the faults. -/
def Obligations.NextPcOfEveryStep : Prop :=
  ∀ s t : State, s.run = .running → step s = .next t →
    (t.run ≠ .running → t.pc = s.pc) ∧
    (∀ r, s.decodedAtPc = .error r → t.pc = s.pc) ∧
    ∀ i, s.decodedAtPc = .ok i → t.run = .running →
      (∀ v, targetOf i s = some v → t.pc = v) ∧
      (targetOf i s = none → t.pc.toNat = (s.pc.toNat + i.length) % 256)

/-- No instruction but PUSH and CALL changes a byte of memory, and they change the byte below SP
only. That an illegal register and DIV by zero fault with no such change is decisions D5 and D7. It
rests on log entries 5 and 7. -/
def Obligations.OnlyPushAndCallStore : Prop :=
  ∀ (i : Instr) (s t : State) (x : Byte), exec i s = .next t → t.memRead x ≠ s.memRead x →
    x = s.sp - 1 ∧ ∃ a : RegIdx, i = .push a.toByte ∨ i = .call a.toByte

/-- An instruction changes no register but those the access table names as written: rA, and R7 for
the stack instructions. That an illegal register and DIV by zero fault with no such change is
decisions D5 and D7. It rests on log entries 5 and 7. -/
def Obligations.OnlyNamedRegistersChange : Prop :=
  ∀ (i : Instr) (s t : State) (r : RegIdx), exec i s = .next t → t.reg r ≠ s.reg r →
    r.toByte ∈ writtenRegs i

/-- An instruction sends at most one event, PRN its register's value and MOD with a zero divisor
the diagnostic, and no other instruction sends any; an event's line is its text and the line end,
the text of Num(v) being the unsigned decimal. That DIV by zero sends nothing is decision D7 (under
`mod_like` it sends the diagnostic), that an illegal register sends nothing decision D5; the number
format and the open line end are decision D9, the open diagnostic decision D8. It rests on log
entries 5, 6, 7 and 10. -/
def Obligations.OutputEventsAndLines : Prop :=
  (∀ (i : Instr) (s t : State), exec i s = .next t → t.out = s.out ∨
      (∃ a : RegIdx, i = .prn a.toByte ∧ t.out = s.out ++ [.num (s.reg a)]) ∨
      ∃ a b : RegIdx, i = .mod a.toByte b.toByte ∧ s.reg b = 0 ∧
        t.out = s.out ++ [.divZeroDiag]) ∧
    (∀ (s : State) (a : RegIdx), ∃ t, exec (.prn a.toByte) s = .next t ∧
      t.out = s.out ++ [.num (s.reg a)]) ∧
    (∀ (s : State) (a b : RegIdx), s.reg b = 0 → ∃ t,
      exec (.mod a.toByte b.toByte) s = .next t ∧ t.out = s.out ++ [.divZeroDiag]) ∧
    (∀ v : Byte, ∃ digits : List Char,
      (Event.num v).line = String.ofList digits ++ Config.lineEnd ∧
      digits.foldl (fun n c => 10 * n + (c.toNat - '0'.toNat)) 0 = v.toNat ∧
      (∀ c ∈ digits, c.isDigit) ∧ digits ≠ [] ∧ (digits.head? = some '0' → digits.length = 1)) ∧
    Event.divZeroDiag.line = Config.div0Message ++ Config.lineEnd

/-- PUSH followed by POP gives the pushed value in the register popped, and every other register,
SP included, its old value. For PUSH R7 and POP R7 this is DEDUCED. It rests on log entry 21. -/
def Obligations.PushThenPopRestores : Prop :=
  ∀ (s : State) (a b : RegIdx), ∃ t u,
    exec (.push a.toByte) s = .next t ∧ exec (.pop b.toByte) t = .next u ∧
    u.reg b = s.reg a ∧ (∀ r, r ≠ b → u.reg r = s.reg r) ∧
    u.pc.toNat = (s.pc.toNat + 4) % 256

/-- CALL pushes one byte, saving no register and no flag; a RET that finds SP and the byte at it as
CALL left them, whatever ran between, pops one byte and returns to P+2 with the caller's SP; and
CALL then RET alone leaves every register as it was. It is about rule R103, which marks as derived
that no register and no flag is saved; the return address P+2 is DEDUCED (conflict C1). It rests on
log entry 21. -/
def Obligations.CallThenRetReturns : Prop :=
  ∀ (s : State) (a : RegIdx), ∃ t,
    exec (.call a.toByte) s = .next t ∧ SameExceptRegs [7] s t ∧ MemSameExcept (s.sp - 1) s t ∧
    (∀ u : State, u.sp = t.sp → u.memRead u.sp = t.memRead t.sp → ∃ v,
      exec .ret u = .next v ∧ v.pc.toNat = (s.pc.toNat + 2) % 256 ∧ v.sp = s.sp ∧
      SameExceptRegs [7] u v ∧ MemSame u v) ∧
    ∃ w, exec .ret t = .next w ∧ (∀ r, w.reg r = s.reg r) ∧ w.fl = s.fl

/-! ### Memory and the stack -/

/-- Rule R28: a write changes the byte at its address, to any value, and no other, and no register,
FL, latch, run state, log or pc; a read is a byte alone. -/
def Obligations.WriteThenRead : Prop :=
  ∀ (s : State) (addr v : Byte),
    (∀ x, (s.memWrite addr v).memRead x = if x = addr then v else s.memRead x) ∧
    SameExceptRegs [] s (s.memWrite addr v) ∧ (s.memWrite addr v).pc = s.pc

/-- Two memories in canonical form that read alike at every address are the same memory; so writing
back what is there changes nothing, and a write is undone by writing the old byte back. It rests on
log entry 13. -/
def Obligations.CanonicalMemoriesAreEqual : Prop :=
  (∀ m n : Memory, m.Wf → n.Wf → (∀ x, m.read x = n.read x) → m = n) ∧
    ∀ (m : Memory) (addr v : Byte), m.Wf →
      (m.write addr (m.read addr) = m ∧ (m.write addr v).write addr (m.read addr) = m)

/-- Rules R90 and R91: push decrements SP modulo 256 and writes at the new SP, of a value fixed
before; pop reads at SP and increments it modulo 256, clearing nothing; and neither changes
anything else. -/
def Obligations.StackPrimitives : Prop :=
  (∀ (s : State) (v : Byte),
      ((s.push v).reg 7).toNat = ((s.reg 7).toNat + 255) % 256 ∧
      (s.push v).memRead ((s.push v).reg 7) = v ∧ (s.push v).pc = s.pc ∧
      SameExceptRegs [7] s (s.push v) ∧ MemSameExcept ((s.push v).reg 7) s (s.push v)) ∧
    ∀ s : State,
      s.popValue = s.memRead (s.reg 7) ∧
      (s.popState.reg 7).toNat = ((s.reg 7).toNat + 1) % 256 ∧ s.popState.pc = s.pc ∧
      SameExceptRegs [7] s s.popState ∧ MemSame s s.popState

/-- No overflow or underflow is detected at the ends of memory: there SP wraps and the core goes
on, and PUSH reaches any byte. That PUSH, POP, CALL and RET go on at every other SP is in
PushStoresBelowSp, PopLoadsFromSp, CallPushesReturnAddress and RetPopsPc. That PUSH R7 stores the
old SP is DEDUCED. It rests on log entry 21. -/
def Obligations.StackWrapsUnchecked : Prop :=
  (∀ (s : State) (a : RegIdx), s.sp = 0x00 → ∃ t, exec (.push a.toByte) s = .next t ∧
      t.sp = 0xFF ∧ t.memRead 0xFF = s.reg a ∧ t.run = s.run) ∧
    (∀ (s : State) (a : RegIdx), s.sp = 0xFF → a ≠ 7 → ∃ t, exec (.pop a.toByte) s = .next t ∧
      t.sp = 0x00 ∧ t.reg a = s.memRead 0xFF ∧ t.run = s.run) ∧
    ∀ (s : State) (a : RegIdx) (x : Byte), s.sp = x + 1 → ∃ t,
      exec (.push a.toByte) s = .next t ∧ t.memRead x = s.reg a

/-- The transactions of a step, in order: the three fetch reads; then, when they execute, one write
at SP-1 for PUSH and CALL and one read at SP for POP and RET; then none, and none more for any
other instruction, an undefined byte or an illegal register. The sequence is rule R37's; the fault
of an illegal register is decision D5, and the bytes written by PUSH R7 and CALL are DEDUCED. It
rests on log entries 7, 16 and 21. -/
def Obligations.TransactionsOfAStep : Prop :=
  ∀ s : State, s.run = .running → ∀ fetch : List Transaction,
    fetch = [.read s.pc (s.memRead s.pc), .read (s.pc + 1) (s.memRead (s.pc + 1)),
      .read (s.pc + 2) (s.memRead (s.pc + 2))] →
    (∀ a : RegIdx, s.decodedAtPc = .ok (.push a.toByte) →
      stepTransactions s = fetch ++ [.write (s.sp - 1) (s.reg a)]) ∧
    (∀ a : RegIdx, s.decodedAtPc = .ok (.call a.toByte) →
      stepTransactions s = fetch ++ [.write (s.sp - 1) (s.pc + 2)]) ∧
    (∀ a : RegIdx, s.decodedAtPc = .ok (.pop a.toByte) →
      stepTransactions s = fetch ++ [.read s.sp (s.memRead s.sp)]) ∧
    (s.decodedAtPc = .ok .ret → stepTransactions s = fetch ++ [.read s.sp (s.memRead s.sp)]) ∧
    (∀ i, s.decodedAtPc = .ok i → i.wf = false → stepTransactions s = fetch) ∧
    (∀ i, s.decodedAtPc = .ok i → i ≠ .ret →
      (∀ r, i ≠ .push r ∧ i ≠ .call r ∧ i ≠ .pop r) → stepTransactions s = fetch) ∧
    ∀ r, s.decodedAtPc = .error r → stepTransactions s = fetch

/-- The memory after a step is what its write transactions make of the memory before it, and every
read transaction returns the byte then in memory: one agent, in order. That an illegal register
makes no transaction after the fetch rests on decision D5. It rests on log entries 7 and 16. -/
def Obligations.StepMemoryIsItsTransactions : Prop :=
  ∀ s t : State, step s = .next t →
    t.mem = (stepTransactions s).foldl Transaction.apply s.mem ∧
    ∀ addr data, Transaction.read addr data ∈ stepTransactions s → data = s.memRead addr

/-- Code written by PUSH is what the next fetch sees, and a PUSH over its own operand byte still
uses the byte it fetched. Rule R41 marks both as derived; that PUSH R7 stores the old SP is
DEDUCED. It rests on log entry 21. -/
def Obligations.PushedCodeIsFetched : Prop :=
  ∀ (s : State) (a : RegIdx), s.run = .running → s.decodedAtPc = .ok (.push a.toByte) →
    (s.sp - 1 = s.pc + 2 → ∃ t u, step s = .next t ∧ step t = .next u ∧ u.ir = s.reg a) ∧
    (s.sp - 1 = s.pc + 1 → ∃ t, step s = .next t ∧ t.opA = s.memRead (s.pc + 1) ∧
      t.memRead (s.pc + 1) = s.reg a)

/-! ### Reset, load and the invariant -/

/-- The machine after reset: R0 to R6 zero, SP 0xF4, FL and PC zero, every byte of memory zero; the
output log is empty by the spec's decision D15. The run state is RUNNING: D15 and rule R119 say so
once the image is loaded, and RUNNING before a load is the model's own DESIGN CHOICE (log entry
12). -/
def Obligations.ResetLeaves : Prop :=
  (∀ r : RegIdx, State.reset.reg r = if r = 7 then 0xF4 else 0x00) ∧ State.reset.fl = 0x00 ∧
    State.reset.pc = 0x00 ∧ (∀ x, State.reset.memRead x = 0x00) ∧
    State.reset.run = .running ∧ State.reset.out = []

/-- A program image of at most 256 bytes is at addresses 0 on in the start state, every other byte
zero and all else as reset leaves it; a longer one is refused (decision D16). It rests on log entry
4. -/
def Obligations.LoadPlacesImage : Prop :=
  (∀ image : List Byte, image.length ≤ 256 → ∃ s, State.load image = .next s ∧
      (∀ x : Byte, s.memRead x = image.getD x.toNat 0) ∧ s.regs = State.reset.regs ∧
      s.fl = 0 ∧ s.pc = 0 ∧ s.run = .running ∧ s.out = []) ∧
    ∀ image : List Byte, 256 < image.length →
      State.load image = .refused (.imageTooLarge image.length)

/-- The invariant holds after reset; the canonical form of memory is the model's own (log entry
13). -/
def Obligations.ResetMeetsInvariant : Prop := State.reset.Inv

/-- Every step keeps the invariant: memory in canonical form (log entry 13), FL a legal value, and
an ended run that agrees with its halt cause or fault record (that pc stays at a HLT is decision
D11, FAULTED and its record decision D12). It rests on log entries 5, 7, 9 and 13. -/
def Obligations.StepKeepsInvariant : Prop :=
  ∀ s t : State, s.Inv → step s = .next t → t.Inv

/-- The invariant holds in every state a run of any loaded image reaches. As in StepKeepsInvariant,
the canonical form of memory is the model's own (log entry 13), that pc stays at a HLT is decision
D11, and FAULTED and its record are decision D12. It rests on log entries 4, 5, 7, 9 and 13. -/
def Obligations.ReachableStatesMeetInvariant : Prop := ∀ s : State, Reachable s → s.Inv

/-- The layout of FL (rule R14): FL is 0 after reset; a CMP leaves exactly one of E, G and L at 1,
by the unsigned order of its registers; no other instruction writes FL; and bits 7..3 are 0 in
every reachable state, which rule R14 itself marks as derived from rules R14, R15 and R81. -/
def Obligations.FlLayoutHolds : Prop :=
  State.reset.fl = 0x00 ∧
    (∀ (s t : State) (a b : RegIdx), exec (.cmp a.toByte b.toByte) s = .next t →
      t.flE = decide ((s.reg a).toNat = (s.reg b).toNat) ∧
      t.flG = decide ((s.reg a).toNat > (s.reg b).toNat) ∧
      t.flL = decide ((s.reg a).toNat < (s.reg b).toNat) ∧
      ∀ k, 3 ≤ k → t.fl.getLsbD k = false) ∧
    (∀ (i : Instr) (s t : State), exec i s = .next t → t.fl ≠ s.fl → ∃ rA rB, i = .cmp rA rB) ∧
    ∀ s : State, Reachable s → ∀ k, 3 ≤ k → s.fl.getLsbD k = false
end

