-- ==== Sys2Proof/Laws/Decode.lean ====
section
/-! SUPPORT. What the opcode map, the decoder and the encoder do. -/

namespace Sys2Proof

theorem Opcode.mem_all (o : Opcode) : o ∈ Opcode.all := by cases o <;> decide

/-- An operation found has the byte looked for. -/
theorem decodeOpcodeWith_some {ob : OpcodeAssignment} {ir : Byte} {o : Opcode}
    (h : decodeOpcodeWith ob ir = some o) : ob o = ir := by
  simpa using List.find?_some h

/-- None is found exactly when no operation has the byte. -/
theorem decodeOpcodeWith_eq_none {ob : OpcodeAssignment} {ir : Byte} :
    decodeOpcodeWith ob ir = none ↔ ∀ o, ob o ≠ ir := by
  simp [decodeOpcodeWith, List.find?_eq_none, Opcode.mem_all]

/-- Where opcode bytes are distinct, an operation's byte finds it. -/
theorem decodeOpcodeWith_self {ob : OpcodeAssignment} (h : ∀ o p, ob o = ob p → o = p)
    (o : Opcode) : decodeOpcodeWith ob (ob o) = some o := by
  cases hd : decodeOpcodeWith ob (ob o) with
  | none => exact absurd rfl (decodeOpcodeWith_eq_none.mp hd o)
  | some p => rw [h p o (decodeOpcodeWith_some hd)]

/-- The opcode of the instruction an operation makes is that operation. -/
@[simp] theorem Opcode.withOperands_opcode (o : Opcode) (a b : Byte) :
    (o.withOperands a b).opcode = o := by cases o <;> rfl

/-- The operand bytes of the instruction an operation makes are the first of the two bytes, as many
as its format has. -/
theorem Opcode.withOperands_operandBytes (o : Opcode) (a b : Byte) :
    (o.withOperands a b).operandBytes = [a, b].take o.format.operands := by cases o <;> rfl

/-- An instruction is what its operation makes of its operand bytes, whatever stands after them. -/
theorem Instr.withOperands_eq (i : Instr) (rest : List Byte) :
    i.opcode.withOperands ((i.operandBytes ++ rest).getD 0 0) ((i.operandBytes ++ rest).getD 1 0) =
      i := by cases i <;> rfl

/-- An instruction has as many operand bytes as its format. -/
theorem Instr.operandBytes_length (i : Instr) :
    i.operandBytes.length = i.opcode.format.operands := by cases i <;> rfl

/-- The fetched bytes decode to an instruction exactly when the opcode byte is an operation's and the
instruction is what it makes of the operand bytes. -/
theorem decodeWith_eq_ok {ob : OpcodeAssignment} {ir a b : Byte} {i : Instr} :
    decodeWith ob ir a b = .ok i ↔
      ∃ o, decodeOpcodeWith ob ir = some o ∧ i = o.withOperands a b := by
  unfold decodeWith
  cases decodeOpcodeWith ob ir with
  | none => simp
  | some o => simp [eq_comm]

/-- The fetched bytes are rejected exactly by the name of an undefined opcode. -/
theorem decodeWith_eq_error {ob : OpcodeAssignment} {ir a b : Byte} {r : DecodeReject} :
    decodeWith ob ir a b = .error r ↔
      decodeOpcodeWith ob ir = none ∧ r = .undefinedOpcode ir := by
  unfold decodeWith
  cases decodeOpcodeWith ob ir with
  | none => simp [eq_comm]
  | some o => simp

end Sys2Proof
end

