-- ==== Sys2Proof/Laws/State.lean ====
section
/-! SUPPORT. One lemma per field per update of the state, each true by rfl, so that no proof unfolds
a record update. -/

namespace Sys2Proof.Machine

/-! ### setReg -/

@[simp] theorem State.setReg_regs (s : State) (r : RegIdx) (v : Byte) : (s.setReg r v).regs = s.regs.set r.val v := rfl
@[simp] theorem State.setReg_fl (s : State) (r : RegIdx) (v : Byte) : (s.setReg r v).fl = s.fl := rfl
@[simp] theorem State.setReg_pc (s : State) (r : RegIdx) (v : Byte) : (s.setReg r v).pc = s.pc := rfl
@[simp] theorem State.setReg_run (s : State) (r : RegIdx) (v : Byte) : (s.setReg r v).run = s.run := rfl
@[simp] theorem State.setReg_ir (s : State) (r : RegIdx) (v : Byte) : (s.setReg r v).ir = s.ir := rfl
@[simp] theorem State.setReg_opA (s : State) (r : RegIdx) (v : Byte) : (s.setReg r v).opA = s.opA := rfl
@[simp] theorem State.setReg_opB (s : State) (r : RegIdx) (v : Byte) : (s.setReg r v).opB = s.opB := rfl
@[simp] theorem State.setReg_mem (s : State) (r : RegIdx) (v : Byte) : (s.setReg r v).mem = s.mem := rfl
@[simp] theorem State.setReg_out (s : State) (r : RegIdx) (v : Byte) : (s.setReg r v).out = s.out := rfl

/-! ### setPc -/

@[simp] theorem State.setPc_regs (s : State) (v : Byte) : (s.setPc v).regs = s.regs := rfl
@[simp] theorem State.setPc_fl (s : State) (v : Byte) : (s.setPc v).fl = s.fl := rfl
@[simp] theorem State.setPc_pc (s : State) (v : Byte) : (s.setPc v).pc = v := rfl
@[simp] theorem State.setPc_run (s : State) (v : Byte) : (s.setPc v).run = s.run := rfl
@[simp] theorem State.setPc_ir (s : State) (v : Byte) : (s.setPc v).ir = s.ir := rfl
@[simp] theorem State.setPc_opA (s : State) (v : Byte) : (s.setPc v).opA = s.opA := rfl
@[simp] theorem State.setPc_opB (s : State) (v : Byte) : (s.setPc v).opB = s.opB := rfl
@[simp] theorem State.setPc_mem (s : State) (v : Byte) : (s.setPc v).mem = s.mem := rfl
@[simp] theorem State.setPc_out (s : State) (v : Byte) : (s.setPc v).out = s.out := rfl

/-! ### advance -/

@[simp] theorem State.advance_regs (s : State) (v : Byte) : (s.advance v).regs = s.regs := rfl
@[simp] theorem State.advance_fl (s : State) (v : Byte) : (s.advance v).fl = s.fl := rfl
@[simp] theorem State.advance_pc (s : State) (v : Byte) : (s.advance v).pc = s.pc + v := rfl
@[simp] theorem State.advance_run (s : State) (v : Byte) : (s.advance v).run = s.run := rfl
@[simp] theorem State.advance_ir (s : State) (v : Byte) : (s.advance v).ir = s.ir := rfl
@[simp] theorem State.advance_opA (s : State) (v : Byte) : (s.advance v).opA = s.opA := rfl
@[simp] theorem State.advance_opB (s : State) (v : Byte) : (s.advance v).opB = s.opB := rfl
@[simp] theorem State.advance_mem (s : State) (v : Byte) : (s.advance v).mem = s.mem := rfl
@[simp] theorem State.advance_out (s : State) (v : Byte) : (s.advance v).out = s.out := rfl

/-! ### setFl -/

@[simp] theorem State.setFl_regs (s : State) (v : Byte) : (s.setFl v).regs = s.regs := rfl
@[simp] theorem State.setFl_fl (s : State) (v : Byte) : (s.setFl v).fl = v := rfl
@[simp] theorem State.setFl_pc (s : State) (v : Byte) : (s.setFl v).pc = s.pc := rfl
@[simp] theorem State.setFl_run (s : State) (v : Byte) : (s.setFl v).run = s.run := rfl
@[simp] theorem State.setFl_ir (s : State) (v : Byte) : (s.setFl v).ir = s.ir := rfl
@[simp] theorem State.setFl_opA (s : State) (v : Byte) : (s.setFl v).opA = s.opA := rfl
@[simp] theorem State.setFl_opB (s : State) (v : Byte) : (s.setFl v).opB = s.opB := rfl
@[simp] theorem State.setFl_mem (s : State) (v : Byte) : (s.setFl v).mem = s.mem := rfl
@[simp] theorem State.setFl_out (s : State) (v : Byte) : (s.setFl v).out = s.out := rfl

/-! ### emit -/

@[simp] theorem State.emit_regs (s : State) (e : Event) : (s.emit e).regs = s.regs := rfl
@[simp] theorem State.emit_fl (s : State) (e : Event) : (s.emit e).fl = s.fl := rfl
@[simp] theorem State.emit_pc (s : State) (e : Event) : (s.emit e).pc = s.pc := rfl
@[simp] theorem State.emit_run (s : State) (e : Event) : (s.emit e).run = s.run := rfl
@[simp] theorem State.emit_ir (s : State) (e : Event) : (s.emit e).ir = s.ir := rfl
@[simp] theorem State.emit_opA (s : State) (e : Event) : (s.emit e).opA = s.opA := rfl
@[simp] theorem State.emit_opB (s : State) (e : Event) : (s.emit e).opB = s.opB := rfl
@[simp] theorem State.emit_mem (s : State) (e : Event) : (s.emit e).mem = s.mem := rfl
@[simp] theorem State.emit_out (s : State) (e : Event) : (s.emit e).out = s.out ++ [e] := rfl

/-! ### halt -/

@[simp] theorem State.halt_regs (s : State) (c : HaltCause) : (s.halt c).regs = s.regs := rfl
@[simp] theorem State.halt_fl (s : State) (c : HaltCause) : (s.halt c).fl = s.fl := rfl
@[simp] theorem State.halt_pc (s : State) (c : HaltCause) : (s.halt c).pc = s.pc := rfl
@[simp] theorem State.halt_run (s : State) (c : HaltCause) : (s.halt c).run = .halted c := rfl
@[simp] theorem State.halt_ir (s : State) (c : HaltCause) : (s.halt c).ir = s.ir := rfl
@[simp] theorem State.halt_opA (s : State) (c : HaltCause) : (s.halt c).opA = s.opA := rfl
@[simp] theorem State.halt_opB (s : State) (c : HaltCause) : (s.halt c).opB = s.opB := rfl
@[simp] theorem State.halt_mem (s : State) (c : HaltCause) : (s.halt c).mem = s.mem := rfl
@[simp] theorem State.halt_out (s : State) (c : HaltCause) : (s.halt c).out = s.out := rfl

/-! ### raiseFault -/

@[simp] theorem State.raiseFault_regs (s : State) (c : FaultCause) : (s.raiseFault c).regs = s.regs := rfl
@[simp] theorem State.raiseFault_fl (s : State) (c : FaultCause) : (s.raiseFault c).fl = s.fl := rfl
@[simp] theorem State.raiseFault_pc (s : State) (c : FaultCause) : (s.raiseFault c).pc = s.pc := rfl
@[simp] theorem State.raiseFault_run (s : State) (c : FaultCause) : (s.raiseFault c).run = .faulted ⟨c, s.pc, s.ir, s.opA, s.opB⟩ := rfl
@[simp] theorem State.raiseFault_ir (s : State) (c : FaultCause) : (s.raiseFault c).ir = s.ir := rfl
@[simp] theorem State.raiseFault_opA (s : State) (c : FaultCause) : (s.raiseFault c).opA = s.opA := rfl
@[simp] theorem State.raiseFault_opB (s : State) (c : FaultCause) : (s.raiseFault c).opB = s.opB := rfl
@[simp] theorem State.raiseFault_mem (s : State) (c : FaultCause) : (s.raiseFault c).mem = s.mem := rfl
@[simp] theorem State.raiseFault_out (s : State) (c : FaultCause) : (s.raiseFault c).out = s.out := rfl

/-! ### memWrite -/

@[simp] theorem State.memWrite_regs (s : State) (a v : Byte) : (s.memWrite a v).regs = s.regs := rfl
@[simp] theorem State.memWrite_fl (s : State) (a v : Byte) : (s.memWrite a v).fl = s.fl := rfl
@[simp] theorem State.memWrite_pc (s : State) (a v : Byte) : (s.memWrite a v).pc = s.pc := rfl
@[simp] theorem State.memWrite_run (s : State) (a v : Byte) : (s.memWrite a v).run = s.run := rfl
@[simp] theorem State.memWrite_ir (s : State) (a v : Byte) : (s.memWrite a v).ir = s.ir := rfl
@[simp] theorem State.memWrite_opA (s : State) (a v : Byte) : (s.memWrite a v).opA = s.opA := rfl
@[simp] theorem State.memWrite_opB (s : State) (a v : Byte) : (s.memWrite a v).opB = s.opB := rfl
@[simp] theorem State.memWrite_mem (s : State) (a v : Byte) : (s.memWrite a v).mem = s.mem.write a v := rfl
@[simp] theorem State.memWrite_out (s : State) (a v : Byte) : (s.memWrite a v).out = s.out := rfl

/-! ### fetch -/

@[simp] theorem State.fetch_regs (s : State) : (s.fetch).regs = s.regs := rfl
@[simp] theorem State.fetch_fl (s : State) : (s.fetch).fl = s.fl := rfl
@[simp] theorem State.fetch_pc (s : State) : (s.fetch).pc = s.pc := rfl
@[simp] theorem State.fetch_run (s : State) : (s.fetch).run = s.run := rfl
@[simp] theorem State.fetch_ir (s : State) : (s.fetch).ir = s.memRead s.pc := rfl
@[simp] theorem State.fetch_opA (s : State) : (s.fetch).opA = s.memRead (s.pc + 1) := rfl
@[simp] theorem State.fetch_opB (s : State) : (s.fetch).opB = s.memRead (s.pc + 2) := rfl
@[simp] theorem State.fetch_mem (s : State) : (s.fetch).mem = s.mem := rfl
@[simp] theorem State.fetch_out (s : State) : (s.fetch).out = s.out := rfl

/-! ### push -/

@[simp] theorem State.push_regs (s : State) (v : Byte) : (s.push v).regs = s.regs.set 7 (s.sp - 1) := rfl
@[simp] theorem State.push_fl (s : State) (v : Byte) : (s.push v).fl = s.fl := rfl
@[simp] theorem State.push_pc (s : State) (v : Byte) : (s.push v).pc = s.pc := rfl
@[simp] theorem State.push_run (s : State) (v : Byte) : (s.push v).run = s.run := rfl
@[simp] theorem State.push_ir (s : State) (v : Byte) : (s.push v).ir = s.ir := rfl
@[simp] theorem State.push_opA (s : State) (v : Byte) : (s.push v).opA = s.opA := rfl
@[simp] theorem State.push_opB (s : State) (v : Byte) : (s.push v).opB = s.opB := rfl
@[simp] theorem State.push_mem (s : State) (v : Byte) : (s.push v).mem = s.mem.write (s.sp - 1) v := rfl
@[simp] theorem State.push_out (s : State) (v : Byte) : (s.push v).out = s.out := rfl

/-! ### popState -/

@[simp] theorem State.popState_regs (s : State) : (s.popState).regs = s.regs.set 7 (s.sp + 1) := rfl
@[simp] theorem State.popState_fl (s : State) : (s.popState).fl = s.fl := rfl
@[simp] theorem State.popState_pc (s : State) : (s.popState).pc = s.pc := rfl
@[simp] theorem State.popState_run (s : State) : (s.popState).run = s.run := rfl
@[simp] theorem State.popState_ir (s : State) : (s.popState).ir = s.ir := rfl
@[simp] theorem State.popState_opA (s : State) : (s.popState).opA = s.opA := rfl
@[simp] theorem State.popState_opB (s : State) : (s.popState).opB = s.opB := rfl
@[simp] theorem State.popState_mem (s : State) : (s.popState).mem = s.mem := rfl
@[simp] theorem State.popState_out (s : State) : (s.popState).out = s.out := rfl

/-! ### zeroDivisorHalt -/

@[simp] theorem State.zeroDivisorHalt_regs (s : State) : (s.zeroDivisorHalt).regs = s.regs := rfl
@[simp] theorem State.zeroDivisorHalt_fl (s : State) : (s.zeroDivisorHalt).fl = s.fl := rfl
@[simp] theorem State.zeroDivisorHalt_pc (s : State) : (s.zeroDivisorHalt).pc = s.pc := rfl
@[simp] theorem State.zeroDivisorHalt_run (s : State) : (s.zeroDivisorHalt).run = .halted .zeroDivisor := rfl
@[simp] theorem State.zeroDivisorHalt_ir (s : State) : (s.zeroDivisorHalt).ir = s.ir := rfl
@[simp] theorem State.zeroDivisorHalt_opA (s : State) : (s.zeroDivisorHalt).opA = s.opA := rfl
@[simp] theorem State.zeroDivisorHalt_opB (s : State) : (s.zeroDivisorHalt).opB = s.opB := rfl
@[simp] theorem State.zeroDivisorHalt_mem (s : State) : (s.zeroDivisorHalt).mem = s.mem := rfl
@[simp] theorem State.zeroDivisorHalt_out (s : State) : (s.zeroDivisorHalt).out = s.out ++ [.divZeroDiag] := rfl

/-! ### Readings: a register and a byte of memory after each update -/

theorem State.reg_of_regs_eq {s t : State} (h : t.regs = s.regs) (r : RegIdx) :
    t.reg r = s.reg r := by simp [State.reg, h]

theorem State.memRead_of_mem_eq {s t : State} (h : t.mem = s.mem) (x : Byte) :
    t.memRead x = s.memRead x := by simp [State.memRead, h]

@[simp] theorem State.reg_setReg (s : State) (r q : RegIdx) (v : Byte) :
    (s.setReg r v).reg q = if q = r then v else s.reg q := by
  simp only [State.reg, State.setReg, Vector.getElem_set, Fin.ext_iff, eq_comm]

@[simp] theorem State.reg_push (s : State) (v : Byte) (q : RegIdx) :
    (s.push v).reg q = if q = 7 then s.sp - 1 else s.reg q := State.reg_setReg s 7 q (s.sp - 1)

@[simp] theorem State.reg_popState (s : State) (q : RegIdx) :
    s.popState.reg q = if q = 7 then s.sp + 1 else s.reg q := State.reg_setReg s 7 q (s.sp + 1)

theorem State.sp_eq_reg (s : State) : s.sp = s.reg 7 := rfl

@[simp] theorem State.reg_setPc (s : State) (v : Byte) (q : RegIdx) : (s.setPc v).reg q = s.reg q := rfl
@[simp] theorem State.reg_advance (s : State) (v : Byte) (q : RegIdx) : (s.advance v).reg q = s.reg q := rfl
@[simp] theorem State.reg_setFl (s : State) (v : Byte) (q : RegIdx) : (s.setFl v).reg q = s.reg q := rfl
@[simp] theorem State.reg_emit (s : State) (e : Event) (q : RegIdx) : (s.emit e).reg q = s.reg q := rfl
@[simp] theorem State.reg_halt (s : State) (c : HaltCause) (q : RegIdx) : (s.halt c).reg q = s.reg q := rfl
@[simp] theorem State.reg_raiseFault (s : State) (c : FaultCause) (q : RegIdx) : (s.raiseFault c).reg q = s.reg q := rfl
@[simp] theorem State.reg_zeroDivisorHalt (s : State) (q : RegIdx) : (s.zeroDivisorHalt).reg q = s.reg q := rfl
@[simp] theorem State.reg_fetch (s : State) (q : RegIdx) : (s.fetch).reg q = s.reg q := rfl
@[simp] theorem State.reg_memWrite (s : State) (a v : Byte) (q : RegIdx) : (s.memWrite a v).reg q = s.reg q := rfl

@[simp] theorem State.memRead_setPc (s : State) (v : Byte) (x : Byte) : (s.setPc v).memRead x = s.memRead x := rfl
@[simp] theorem State.memRead_advance (s : State) (v : Byte) (x : Byte) : (s.advance v).memRead x = s.memRead x := rfl
@[simp] theorem State.memRead_setFl (s : State) (v : Byte) (x : Byte) : (s.setFl v).memRead x = s.memRead x := rfl
@[simp] theorem State.memRead_emit (s : State) (e : Event) (x : Byte) : (s.emit e).memRead x = s.memRead x := rfl
@[simp] theorem State.memRead_halt (s : State) (c : HaltCause) (x : Byte) : (s.halt c).memRead x = s.memRead x := rfl
@[simp] theorem State.memRead_raiseFault (s : State) (c : FaultCause) (x : Byte) : (s.raiseFault c).memRead x = s.memRead x := rfl
@[simp] theorem State.memRead_zeroDivisorHalt (s : State) (x : Byte) : (s.zeroDivisorHalt).memRead x = s.memRead x := rfl
@[simp] theorem State.memRead_fetch (s : State) (x : Byte) : (s.fetch).memRead x = s.memRead x := rfl
@[simp] theorem State.memRead_setReg (s : State) (r : RegIdx) (v : Byte) (x : Byte) : (s.setReg r v).memRead x = s.memRead x := rfl
@[simp] theorem State.memRead_popState (s : State) (x : Byte) : (s.popState).memRead x = s.memRead x := rfl

/-- The fetch of the model is the latched state of the statements. -/
theorem State.fetch_eq_latchedState (s : State) : s.fetch = latchedState s := rfl

/-- Taking a fault is the faulted state of the statements. -/
theorem State.raiseFault_eq_faultedState (s : State) (c : FaultCause) :
    s.raiseFault c = faultedState c s := rfl

end Sys2Proof.Machine
end

