-- ==== Sys2Proof/Laws/Memory.lean ====
section
/-! SUPPORT. What the memory operations do: a read after a write, and the canonical form that every
operation keeps. -/

namespace Sys2Proof.Machine

/-! ### Reading after an operation -/

theorem Memory.lookup_erase (m : Memory) (a x : Nat) :
    (m.erase a).lookup x = if x = a then 0 else m.lookup x := by
  induction m with
  | nil => simp [Memory.erase, Memory.lookup]
  | cons c rest ih =>
    obtain ⟨k, v⟩ := c
    simp only [Memory.erase] at ih
    by_cases hk : k = a
    · subst hk
      simp only [Memory.erase, List.filter_cons, bne_self_eq_false, Bool.false_eq_true, if_false,
        ih, Memory.lookup]
      grind
    · simp only [Memory.erase, List.filter_cons, bne_iff_ne, ne_eq, hk, not_false_eq_true, if_true,
        Memory.lookup, ih]
      grind

theorem Memory.lookup_insert (m : Memory) (a x : Nat) (v : Byte) :
    (m.insert a v).lookup x = if x = a then v else m.lookup x := by
  induction m with
  | nil => simp only [Memory.insert, Memory.lookup]; grind
  | cons c rest ih =>
    obtain ⟨k, w⟩ := c
    simp only [Memory.insert]
    split
    · simp only [Memory.lookup]; grind
    · split
      · simp only [Memory.lookup]; grind
      · simp only [Memory.lookup, ih]; grind

/-! ### The canonical form -/

theorem Memory.wf_nil : Memory.Wf [] := by simp [Memory.Wf]

theorem Memory.mem_insert {m : Memory} {a : Nat} {v : Byte} {c : Host.Cell}
    (h : c ∈ m.insert a v) : c = (a, v) ∨ c ∈ m := by
  induction m with
  | nil => simpa [Memory.insert] using h
  | cons d rest ih =>
    obtain ⟨k, w⟩ := d
    simp only [Memory.insert] at h
    split at h
    · simpa using h
    · split at h
      · simp only [List.mem_cons] at h ⊢; tauto
      · simp only [List.mem_cons] at h ⊢
        rcases h with h | h
        · exact .inr (.inl h)
        · exact (ih h).imp_right .inr

theorem Memory.insert_pairwise {m : Memory} (h : m.Pairwise (fun c d => c.1 < d.1)) (a : Nat)
    (v : Byte) : (m.insert a v).Pairwise (fun c d => c.1 < d.1) := by
  induction m with
  | nil => simp [Memory.insert]
  | cons d rest ih =>
    obtain ⟨k, w⟩ := d
    have hr := List.pairwise_cons.mp h
    simp only [Memory.insert]
    split
    · refine List.pairwise_cons.mpr ⟨fun c hc => ?_, h⟩
      rcases List.mem_cons.mp hc with rfl | hc
      · assumption
      · exact Nat.lt_trans (by assumption) (hr.1 c hc)
    · split
      · subst_vars
        exact List.pairwise_cons.mpr ⟨hr.1, hr.2⟩
      · refine List.pairwise_cons.mpr ⟨fun c hc => ?_, ih hr.2⟩
        rcases Memory.mem_insert hc with rfl | hc
        · simp only; omega
        · exact hr.1 c hc

theorem Memory.insert_wf {m : Memory} (h : m.Wf) {a : Nat} (ha : a < 256) {v : Byte}
    (hv : v ≠ 0) : (m.insert a v).Wf := by
  refine ⟨Memory.insert_pairwise h.1 a v, fun c hc => ?_⟩
  rcases Memory.mem_insert hc with rfl | hc
  · exact ⟨ha, hv⟩
  · exact h.2 c hc

theorem Memory.erase_wf {m : Memory} (h : m.Wf) (a : Nat) : (m.erase a).Wf :=
  ⟨h.1.filter _, fun c hc => h.2 c (List.mem_of_mem_filter hc)⟩

/-- A write keeps the canonical form. -/
theorem Memory.write_wf {m : Memory} (h : m.Wf) (a v : Byte) : (m.write a v).Wf := by
  unfold Memory.write
  split
  · exact Memory.erase_wf h _
  · exact Memory.insert_wf h a.isLt (by assumption)

/-- Writing a run of bytes keeps the canonical form. -/
theorem Memory.writeBytes_wf {m : Memory} (h : m.Wf) (a : Byte) (bs : List Byte) :
    (m.writeBytes a bs).Wf := by
  induction bs generalizing m a with
  | nil => exact h
  | cons v rest ih => exact ih (Memory.write_wf h a v) (a + 1)

/-- Every operation on the state's memory keeps the canonical form. -/
theorem State.memWrite_wf {s : State} (h : s.mem.Wf) (a v : Byte) : (s.memWrite a v).mem.Wf :=
  Memory.write_wf h a v

theorem State.push_wf {s : State} (h : s.mem.Wf) (v : Byte) : (s.push v).mem.Wf :=
  Memory.write_wf h _ _

theorem State.withFetchWord_wf {s : State} (h : s.mem.Wf) (nbits w : Nat) :
    (s.withFetchWord nbits w).mem.Wf := Memory.writeBytes_wf h _ _

theorem State.reset_wf : State.reset.mem.Wf := Memory.wf_nil

/-- In canonical form an address below every listed one reads as 0x00. -/
theorem Memory.lookup_of_lt {m : Memory} {a : Nat} (h : ∀ c ∈ m, a < c.1) : m.lookup a = 0 := by
  induction m with
  | nil => rfl
  | cons c rest ih =>
    have := h c (by simp)
    simp only [Memory.lookup, if_neg (Nat.ne_of_gt this)]
    exact ih fun d hd => h d (by simp [hd])

end Sys2Proof.Machine
end

