-- ==== Sys2Proof/Laws/Ops.lean ====
section
/-! SUPPORT. What each shared operation does, said once. -/

namespace Sys2Proof.Machine

/-! ### Register operands -/

theorem RegIdx_toByte_toNat (r : RegIdx) : r.toByte.toNat = r.val := by
  have := r.isLt
  simp [RegIdx.toByte]; omega

/-- The byte of a register names it. -/
@[simp] theorem regIndex_toByte (r : RegIdx) : regIndex r.toByte = some r := by
  have := r.isLt
  simp [regIndex, RegIdx_toByte_toNat]

/-- A byte that names a register is that register's byte. -/
theorem regIndex_eq_some {b : Byte} {r : RegIdx} : regIndex b = some r ↔ b = r.toByte := by
  constructor
  · intro h
    unfold regIndex at h
    split at h
    · cases h; apply BitVec.eq_of_toNat_eq; simp [RegIdx.toByte]
    · cases h
  · rintro rfl; simp

theorem regIndex_eq_none {b : Byte} : regIndex b = none ↔ 8 ≤ b.toNat := by
  simp [regIndex]

/-- Every byte names a register or is 8 or more. -/
theorem regByte_cases (b : Byte) : (∃ r : RegIdx, b = r.toByte) ∨ 8 ≤ b.toNat := by
  cases h : regIndex b with
  | none => exact .inr (regIndex_eq_none.mp h)
  | some r => exact .inl ⟨r, regIndex_eq_some.mp h⟩

theorem regByteOk_eq_false {b : Byte} : regByteOk b = false ↔ 8 ≤ b.toNat := by
  simp [regByteOk]

@[simp] theorem regByteOk_toByte (r : RegIdx) : regByteOk r.toByte = true := by
  simp [regByteOk, RegIdx_toByte_toNat]

/-- A legal register operand is handed on. -/
@[simp] theorem withReg_legal (a : RegIdx) (s : State) (k : RegIdx → StepResult) :
    withReg a.toByte s k = k a := by simp [withReg]

/-- An illegal one faults, whatever the instruction would do. -/
theorem withReg_illegal {rA : Byte} (h : 8 ≤ rA.toNat) (s : State) (k : RegIdx → StepResult) :
    withReg rA s k = .next (s.raiseFault .illegalRegister) := by
  simp [withReg, regIndex_eq_none.mpr h]

/-- Everything one register operand can lead to. -/
theorem withReg_cases {rA : Byte} {s t : State} {k : RegIdx → StepResult}
    (h : withReg rA s k = .next t) :
    (∃ a : RegIdx, rA = a.toByte ∧ k a = .next t) ∨
      (8 ≤ rA.toNat ∧ t = s.raiseFault .illegalRegister) := by
  rcases regByte_cases rA with ⟨a, rfl⟩ | hA
  · exact .inl ⟨a, rfl, by simpa using h⟩
  · rw [withReg_illegal hA] at h
    cases h
    exact .inr ⟨hA, rfl⟩

/-- Two legal register operands are handed on. -/
@[simp] theorem withRegs_legal (a b : RegIdx) (s : State) (k : RegIdx → RegIdx → StepResult) :
    withRegs a.toByte b.toByte s k = k a b := by simp [withRegs]

/-- One of the two illegal faults. -/
theorem withRegs_illegal {rA rB : Byte} (h : 8 ≤ rA.toNat ∨ 8 ≤ rB.toNat) (s : State)
    (k : RegIdx → RegIdx → StepResult) :
    withRegs rA rB s k = .next (s.raiseFault .illegalRegister) := by
  rcases regByte_cases rA with ⟨a, rfl⟩ | hA
  · have hB : 8 ≤ rB.toNat := by
      have := a.isLt
      simp only [RegIdx_toByte_toNat] at h; omega
    simp [withRegs, withReg_illegal hB]
  · simp [withRegs, withReg_illegal hA]

/-- Everything two register operands can lead to. -/
theorem withRegs_cases {rA rB : Byte} {s t : State} {k : RegIdx → RegIdx → StepResult}
    (h : withRegs rA rB s k = .next t) :
    (∃ a b : RegIdx, rA = a.toByte ∧ rB = b.toByte ∧ k a b = .next t) ∨
      ((8 ≤ rA.toNat ∨ 8 ≤ rB.toNat) ∧ t = s.raiseFault .illegalRegister) := by
  rcases withReg_cases h with ⟨a, rfl, hk⟩ | ⟨hA, rfl⟩
  · rcases withReg_cases hk with ⟨b, rfl, hr⟩ | ⟨hB, rfl⟩
    · exact .inl ⟨a, b, rfl, rfl, hr⟩
    · exact .inr ⟨.inr hB, rfl⟩
  · exact .inr ⟨.inl hA, rfl⟩

/-! ### The ALU's two-register form -/

@[simp] theorem State.reg_aluResult (s : State) (f : Byte → Byte → Byte) (a b q : RegIdx) :
    (s.aluResult f a b).reg q = if q = a then f (s.reg a) (s.reg b) else s.reg q := by
  simp [State.aluResult]

@[simp] theorem State.aluResult_pc (s : State) (f : Byte → Byte → Byte) (a b : RegIdx) :
    (s.aluResult f a b).pc = s.pc + 3 := rfl

/-- A two-register ALU operation changes its one register and pc. -/
theorem State.aluResult_frame (s : State) (f : Byte → Byte → Byte) (a b : RegIdx) :
    SameExceptRegs [a] s (s.aluResult f a b) ∧ MemSame s (s.aluResult f a b) :=
  ⟨⟨fun r hr => by simp_all, rfl, rfl, rfl, rfl, rfl, rfl⟩, fun _ => rfl⟩

/-! ### Flags -/

/-- The flag byte CMP writes is E, G or L, by the unsigned order. -/
theorem cmpFlags_cases (va vb : Byte) :
    (va = vb ∧ cmpFlags va vb = flagE) ∨ (vb < va ∧ cmpFlags va vb = flagG) ∨
      (va < vb ∧ cmpFlags va vb = flagL) := by
  unfold cmpFlags
  by_cases h : va = vb
  · simp [h]
  · by_cases h' : vb < va
    · simp [h, h']
    · simp only [h, h', if_false, false_and, and_true, false_or]
      bv_omega

end Sys2Proof.Machine
end

