-- ==== Sys2Proof/Laws/Exec.lean ====
section
/-! SUPPORT. Everything an instruction can do, said once: the effect of every instruction as a
relation, and the inversion lemma that exec answers a next state only along it. Whole-machine facts
are then one case analysis. -/

namespace Sys2Proof.Machine

/-- The effects of the instructions, one constructor each (two for DIV and MOD), and the one fault
they share. -/
inductive Effect (s : State) : Instr → State → Prop where
  | illegal {i : Instr} (h : i.wf = false) : Effect s i (s.raiseFault .illegalRegister)
  | hlt : Effect s .hlt (s.halt .hlt)
  | ret : Effect s .ret (s.popState.setPc s.popValue)
  | push (a : RegIdx) : Effect s (.push a.toByte) ((s.push (s.reg a)).advance 2)
  | pop (a : RegIdx) : Effect s (.pop a.toByte) ((s.popState.setReg a s.popValue).advance 2)
  | prn (a : RegIdx) : Effect s (.prn a.toByte) ((s.emit (.num (s.reg a))).advance 2)
  | call (a : RegIdx) :
    Effect s (.call a.toByte) ((s.push (s.pc + 2)).setPc ((s.push (s.pc + 2)).reg a))
  | jmp (a : RegIdx) : Effect s (.jmp a.toByte) (s.setPc (s.reg a))
  | jeq (a : RegIdx) :
    Effect s (.jeq a.toByte) (if s.flE then s.setPc (s.reg a) else s.advance 2)
  | jne (a : RegIdx) :
    Effect s (.jne a.toByte) (if s.flE then s.advance 2 else s.setPc (s.reg a))
  | not (a : RegIdx) : Effect s (.not a.toByte) ((s.setReg a (aluNot (s.reg a))).advance 2)
  | ldi (a : RegIdx) (imm : Byte) : Effect s (.ldi a.toByte imm) ((s.setReg a imm).advance 3)
  | add (a b : RegIdx) : Effect s (.add a.toByte b.toByte) (s.aluResult aluAdd a b)
  | sub (a b : RegIdx) : Effect s (.sub a.toByte b.toByte) (s.aluResult aluSub a b)
  | mul (a b : RegIdx) : Effect s (.mul a.toByte b.toByte) (s.aluResult aluMul a b)
  | div (a b : RegIdx) (h : s.reg b ≠ 0) :
    Effect s (.div a.toByte b.toByte) (s.aluResult aluDiv a b)
  | divZero (a b : RegIdx) (h : s.reg b = 0) :
    Effect s (.div a.toByte b.toByte) (s.divideByZero Config.divZeroPolicy)
  | mod (a b : RegIdx) (h : s.reg b ≠ 0) :
    Effect s (.mod a.toByte b.toByte) (s.aluResult aluMod a b)
  | modZero (a b : RegIdx) (h : s.reg b = 0) :
    Effect s (.mod a.toByte b.toByte) s.zeroDivisorHalt
  | cmp (a b : RegIdx) :
    Effect s (.cmp a.toByte b.toByte) ((s.setFl (cmpFlags (s.reg a) (s.reg b))).advance 3)
  | and (a b : RegIdx) : Effect s (.and a.toByte b.toByte) (s.aluResult aluAnd a b)
  | or (a b : RegIdx) : Effect s (.or a.toByte b.toByte) (s.aluResult aluOr a b)
  | xor (a b : RegIdx) : Effect s (.xor a.toByte b.toByte) (s.aluResult aluXor a b)
  | shl (a b : RegIdx) : Effect s (.shl a.toByte b.toByte) (s.aluResult aluShl a b)
  | shr (a b : RegIdx) : Effect s (.shr a.toByte b.toByte) (s.aluResult aluShr a b)

/-! ### Well-formedness, as the registers an instruction names -/

/-- An instruction is ill formed exactly when one of its register operands is 8 or more. -/
theorem wf_eq_false {i : Instr} : i.wf = false ↔ ∃ b ∈ i.regOperands, 8 ≤ b.toNat := by
  simp [Instr.wf, regByteOk_eq_false]

/-- The one-register step of the inversion. -/
theorem effect_of_withReg {i : Instr} {rA : Byte} {s t : State} {k : RegIdx → StepResult}
    (hi : rA ∈ i.regOperands) (hk : ∀ a : RegIdx, rA = a.toByte → k a = .next t → Effect s i t)
    (h : withReg rA s k = .next t) : Effect s i t := by
  rcases withReg_cases h with ⟨a, ha, hr⟩ | ⟨hA, rfl⟩
  · exact hk a ha hr
  · exact .illegal (wf_eq_false.mpr ⟨rA, hi, hA⟩)

/-- The two-register step of the inversion. -/
theorem effect_of_withRegs {i : Instr} {rA rB : Byte} {s t : State}
    {k : RegIdx → RegIdx → StepResult} (hA : rA ∈ i.regOperands) (hB : rB ∈ i.regOperands)
    (hk : ∀ a b : RegIdx, rA = a.toByte → rB = b.toByte → k a b = .next t → Effect s i t)
    (h : withRegs rA rB s k = .next t) : Effect s i t := by
  rcases withRegs_cases h with ⟨a, b, ha, hb, hr⟩ | ⟨h8 | h8, rfl⟩
  · exact hk a b ha hb hr
  · exact .illegal (wf_eq_false.mpr ⟨rA, hA, h8⟩)
  · exact .illegal (wf_eq_false.mpr ⟨rB, hB, h8⟩)

/-- A next state an instruction answers is one of its effects. -/
theorem effect_of_exec {i : Instr} {s t : State} (h : exec i s = .next t) : Effect s i t := by
  cases i with
  | hlt => cases h; exact .hlt
  | ret => cases h; exact .ret
  | push rA =>
    refine effect_of_withReg (by simp [Instr.regOperands]) ?_ h
    rintro a rfl h; cases h; exact .push a
  | pop rA =>
    refine effect_of_withReg (by simp [Instr.regOperands]) ?_ h
    rintro a rfl h; cases h; exact .pop a
  | prn rA =>
    refine effect_of_withReg (by simp [Instr.regOperands]) ?_ h
    rintro a rfl h; cases h; exact .prn a
  | call rA =>
    refine effect_of_withReg (by simp [Instr.regOperands]) ?_ h
    rintro a rfl h; cases h; exact .call a
  | jmp rA =>
    refine effect_of_withReg (by simp [Instr.regOperands]) ?_ h
    rintro a rfl h; cases h; exact .jmp a
  | jeq rA =>
    refine effect_of_withReg (by simp [Instr.regOperands]) ?_ h
    rintro a rfl h; cases h; exact .jeq a
  | jne rA =>
    refine effect_of_withReg (by simp [Instr.regOperands]) ?_ h
    rintro a rfl h; cases h; exact .jne a
  | not rA =>
    refine effect_of_withReg (by simp [Instr.regOperands]) ?_ h
    rintro a rfl h; cases h; exact .not a
  | ldi rA imm =>
    refine effect_of_withReg (by simp [Instr.regOperands]) ?_ h
    rintro a rfl h; cases h; exact .ldi a imm
  | add rA rB =>
    refine effect_of_withRegs (by simp [Instr.regOperands]) (by simp [Instr.regOperands]) ?_ h
    rintro a b rfl rfl h; cases h; exact .add a b
  | sub rA rB =>
    refine effect_of_withRegs (by simp [Instr.regOperands]) (by simp [Instr.regOperands]) ?_ h
    rintro a b rfl rfl h; cases h; exact .sub a b
  | mul rA rB =>
    refine effect_of_withRegs (by simp [Instr.regOperands]) (by simp [Instr.regOperands]) ?_ h
    rintro a b rfl rfl h; cases h; exact .mul a b
  | and rA rB =>
    refine effect_of_withRegs (by simp [Instr.regOperands]) (by simp [Instr.regOperands]) ?_ h
    rintro a b rfl rfl h; cases h; exact .and a b
  | or rA rB =>
    refine effect_of_withRegs (by simp [Instr.regOperands]) (by simp [Instr.regOperands]) ?_ h
    rintro a b rfl rfl h; cases h; exact .or a b
  | xor rA rB =>
    refine effect_of_withRegs (by simp [Instr.regOperands]) (by simp [Instr.regOperands]) ?_ h
    rintro a b rfl rfl h; cases h; exact .xor a b
  | shl rA rB =>
    refine effect_of_withRegs (by simp [Instr.regOperands]) (by simp [Instr.regOperands]) ?_ h
    rintro a b rfl rfl h; cases h; exact .shl a b
  | shr rA rB =>
    refine effect_of_withRegs (by simp [Instr.regOperands]) (by simp [Instr.regOperands]) ?_ h
    rintro a b rfl rfl h; cases h; exact .shr a b
  | cmp rA rB =>
    refine effect_of_withRegs (by simp [Instr.regOperands]) (by simp [Instr.regOperands]) ?_ h
    rintro a b rfl rfl h; cases h; exact .cmp a b
  | div rA rB =>
    refine effect_of_withRegs (by simp [Instr.regOperands]) (by simp [Instr.regOperands]) ?_ h
    rintro a b rfl rfl h
    by_cases hz : s.reg b = 0
    · rw [if_pos hz] at h; cases h; exact .divZero a b hz
    · rw [if_neg hz] at h; cases h; exact .div a b hz
  | mod rA rB =>
    refine effect_of_withRegs (by simp [Instr.regOperands]) (by simp [Instr.regOperands]) ?_ h
    rintro a b rfl rfl h
    by_cases hz : s.reg b = 0
    · rw [if_pos hz] at h; cases h; exact .modZero a b hz
    · rw [if_neg hz] at h; cases h; exact .mod a b hz

/-! ### Every instruction with legal registers, as one equation -/

theorem exec_hlt (s : State) : exec .hlt s = .next (s.halt .hlt) := rfl

theorem exec_ret (s : State) : exec .ret s = .next (s.popState.setPc s.popValue) := rfl

theorem exec_push (a : RegIdx) (s : State) :
    exec (.push a.toByte) s = .next ((s.push (s.reg a)).advance 2) := withReg_legal a s _

theorem exec_pop (a : RegIdx) (s : State) :
    exec (.pop a.toByte) s = .next ((s.popState.setReg a s.popValue).advance 2) :=
  withReg_legal a s _

theorem exec_prn (a : RegIdx) (s : State) :
    exec (.prn a.toByte) s = .next ((s.emit (.num (s.reg a))).advance 2) := withReg_legal a s _

theorem exec_call (a : RegIdx) (s : State) :
    exec (.call a.toByte) s =
      .next ((s.push (s.pc + 2)).setPc ((s.push (s.pc + 2)).reg a)) := withReg_legal a s _

theorem exec_jmp (a : RegIdx) (s : State) :
    exec (.jmp a.toByte) s = .next (s.setPc (s.reg a)) := withReg_legal a s _

theorem exec_jeq (a : RegIdx) (s : State) :
    exec (.jeq a.toByte) s = .next (if s.flE then s.setPc (s.reg a) else s.advance 2) :=
  withReg_legal a s _

theorem exec_jne (a : RegIdx) (s : State) :
    exec (.jne a.toByte) s = .next (if s.flE then s.advance 2 else s.setPc (s.reg a)) :=
  withReg_legal a s _

theorem exec_not (a : RegIdx) (s : State) :
    exec (.not a.toByte) s = .next ((s.setReg a (aluNot (s.reg a))).advance 2) :=
  withReg_legal a s _

theorem exec_ldi (a : RegIdx) (imm : Byte) (s : State) :
    exec (.ldi a.toByte imm) s = .next ((s.setReg a imm).advance 3) := withReg_legal a s _

theorem exec_add (a b : RegIdx) (s : State) :
    exec (.add a.toByte b.toByte) s = .next (s.aluResult aluAdd a b) := withRegs_legal a b s _

theorem exec_sub (a b : RegIdx) (s : State) :
    exec (.sub a.toByte b.toByte) s = .next (s.aluResult aluSub a b) := withRegs_legal a b s _

theorem exec_mul (a b : RegIdx) (s : State) :
    exec (.mul a.toByte b.toByte) s = .next (s.aluResult aluMul a b) := withRegs_legal a b s _

theorem exec_and (a b : RegIdx) (s : State) :
    exec (.and a.toByte b.toByte) s = .next (s.aluResult aluAnd a b) := withRegs_legal a b s _

theorem exec_or (a b : RegIdx) (s : State) :
    exec (.or a.toByte b.toByte) s = .next (s.aluResult aluOr a b) := withRegs_legal a b s _

theorem exec_xor (a b : RegIdx) (s : State) :
    exec (.xor a.toByte b.toByte) s = .next (s.aluResult aluXor a b) := withRegs_legal a b s _

theorem exec_shl (a b : RegIdx) (s : State) :
    exec (.shl a.toByte b.toByte) s = .next (s.aluResult aluShl a b) := withRegs_legal a b s _

theorem exec_shr (a b : RegIdx) (s : State) :
    exec (.shr a.toByte b.toByte) s = .next (s.aluResult aluShr a b) := withRegs_legal a b s _

theorem exec_cmp (a b : RegIdx) (s : State) :
    exec (.cmp a.toByte b.toByte) s =
      .next ((s.setFl (cmpFlags (s.reg a) (s.reg b))).advance 3) := withRegs_legal a b s _

theorem exec_div (a b : RegIdx) {s : State} (h : s.reg b ≠ 0) :
    exec (.div a.toByte b.toByte) s = .next (s.aluResult aluDiv a b) :=
  (withRegs_legal a b s _).trans (if_neg h)

theorem exec_div_zero (a b : RegIdx) {s : State} (h : s.reg b = 0) :
    exec (.div a.toByte b.toByte) s = .next (s.divideByZero Config.divZeroPolicy) :=
  (withRegs_legal a b s _).trans (if_pos h)

theorem exec_mod (a b : RegIdx) {s : State} (h : s.reg b ≠ 0) :
    exec (.mod a.toByte b.toByte) s = .next (s.aluResult aluMod a b) :=
  (withRegs_legal a b s _).trans (if_neg h)

theorem exec_mod_zero (a b : RegIdx) {s : State} (h : s.reg b = 0) :
    exec (.mod a.toByte b.toByte) s = .next s.zeroDivisorHalt :=
  (withRegs_legal a b s _).trans (if_pos h)

end Sys2Proof.Machine
end

