-- ==== Sys2Proof/Laws/PerInstr.lean ====
section
/-! SUPPORT. Statements about every instruction as it is written, one lemma per constructor. -/

namespace Sys2Proof.Laws.EncodingShape

/-- An instruction's encoding is as long as its format says, and is its operation's byte followed by
its operand bytes (spec/30_encoding.md rules R50 and R55). -/
def Statement (i : Instr) : Prop :=
  (encode i).length = i.length ∧
    (encode i).head? = some (opcodeByte i.opcode) ∧
    (encode i).tail = i.operandBytes

theorem hlt : Statement .hlt := ⟨rfl, rfl, rfl⟩
theorem ret : Statement .ret := ⟨rfl, rfl, rfl⟩
theorem push (rA : Byte) : Statement (.push rA) := ⟨rfl, rfl, rfl⟩
theorem pop (rA : Byte) : Statement (.pop rA) := ⟨rfl, rfl, rfl⟩
theorem prn (rA : Byte) : Statement (.prn rA) := ⟨rfl, rfl, rfl⟩
theorem call (rA : Byte) : Statement (.call rA) := ⟨rfl, rfl, rfl⟩
theorem jmp (rA : Byte) : Statement (.jmp rA) := ⟨rfl, rfl, rfl⟩
theorem jeq (rA : Byte) : Statement (.jeq rA) := ⟨rfl, rfl, rfl⟩
theorem jne (rA : Byte) : Statement (.jne rA) := ⟨rfl, rfl, rfl⟩
theorem not (rA : Byte) : Statement (.not rA) := ⟨rfl, rfl, rfl⟩
theorem ldi (rA imm : Byte) : Statement (.ldi rA imm) := ⟨rfl, rfl, rfl⟩
theorem add (rA rB : Byte) : Statement (.add rA rB) := ⟨rfl, rfl, rfl⟩
theorem sub (rA rB : Byte) : Statement (.sub rA rB) := ⟨rfl, rfl, rfl⟩
theorem mul (rA rB : Byte) : Statement (.mul rA rB) := ⟨rfl, rfl, rfl⟩
theorem div (rA rB : Byte) : Statement (.div rA rB) := ⟨rfl, rfl, rfl⟩
theorem mod (rA rB : Byte) : Statement (.mod rA rB) := ⟨rfl, rfl, rfl⟩
theorem cmp (rA rB : Byte) : Statement (.cmp rA rB) := ⟨rfl, rfl, rfl⟩
theorem and (rA rB : Byte) : Statement (.and rA rB) := ⟨rfl, rfl, rfl⟩
theorem or (rA rB : Byte) : Statement (.or rA rB) := ⟨rfl, rfl, rfl⟩
theorem xor (rA rB : Byte) : Statement (.xor rA rB) := ⟨rfl, rfl, rfl⟩
theorem shl (rA rB : Byte) : Statement (.shl rA rB) := ⟨rfl, rfl, rfl⟩
theorem shr (rA rB : Byte) : Statement (.shr rA rB) := ⟨rfl, rfl, rfl⟩

end Sys2Proof.Laws.EncodingShape
end

