-- ==== Sys2Proof/Machine/Assembler.lean ====
section
/-! DEFINITION. The assembly language of spec/30_encoding.md rule R65, from text to bytes, in two
passes: the first gives every label the address of the next byte, the second encodes. There are no
pseudo-instructions (rule R66). `step` does not depend on it. -/

namespace Sys2Proof.Assembler

/-- Why a text is no program. -/
inductive AsmError where
  /-- The word is no mnemonic of the opcode table. -/
  | unknownMnemonic (word : List Char)
  /-- The operands are not those the mnemonic takes (rule R55). -/
  | badOperands (word : List Char)
  /-- A label is written twice, or is empty. -/
  | badLabel (name : List Char)
  deriving DecidableEq, Repr

/-! ### Text -/

/-- The parts of a text between a separator. -/
def splitAt (sep : Char) : List Char → List (List Char)
  | [] => [[]]
  | c :: cs =>
    if c = sep then [] :: splitAt sep cs
    else
      match splitAt sep cs with
      | [] => [[c]]
      | part :: parts => (c :: part) :: parts

/-- Space, tab and carriage return carry no meaning between words. -/
def isBlank (c : Char) : Bool := c == ' ' || c == '\t' || c == '\r'

/-- A text without blanks at its ends. -/
def trim (cs : List Char) : List Char :=
  ((cs.dropWhile isBlank).reverse.dropWhile isBlank).reverse

/-- The value of a digit in a base up to 16, none if it is no digit of the base. -/
def digitValue (base : Nat) (c : Char) : Option Nat :=
  let d := if c.isDigit then c.toNat - '0'.toNat
    else if 'A' ≤ c ∧ c ≤ 'F' then c.toNat - 'A'.toNat + 10
    else if 'a' ≤ c ∧ c ≤ 'f' then c.toNat - 'a'.toNat + 10
    else base
  if d < base then some d else none

/-- The number a run of digits writes, none for an empty run or another character. -/
def numberIn (base : Nat) (cs : List Char) : Option Nat :=
  if cs = [] then none
  else cs.foldl (fun n c => n.bind fun m => (digitValue base c).map (base * m + ·)) (some 0)

/-- An immediate: `0xNN`, `0bNNNNNNNN`, or a decimal number 0 to 255. -/
def immediate (cs : List Char) : Option Byte :=
  let n := match cs with
    | '0' :: 'x' :: hex => if hex.length = 2 then numberIn 16 hex else none
    | '0' :: 'b' :: bits => if bits.length = 8 then numberIn 2 bits else none
    | _ => numberIn 10 cs
  n.bind fun v => if v < 256 then some (BitVec.ofNat 8 v) else none

/-- A register operand: `R0` to `R7`, or `SP` for `R7`. -/
def register (cs : List Char) : Option Byte :=
  match cs with
  | ['S', 'P'] => some (RegIdx.toByte Config.spIndex)
  | ['R', d] => (digitValue 8 d).map (BitVec.ofNat 8 ·)
  | _ => none

/-- The mnemonic of each operation, as spec/opcode_table.json writes it. -/
def mnemonic : Opcode → String
  | .hlt => "HLT"
  | .ret => "RET"
  | .push => "PUSH"
  | .pop => "POP"
  | .prn => "PRN"
  | .call => "CALL"
  | .jmp => "JMP"
  | .jeq => "JEQ"
  | .jne => "JNE"
  | .not => "NOT"
  | .ldi => "LDI"
  | .add => "ADD"
  | .sub => "SUB"
  | .mul => "MUL"
  | .div => "DIV"
  | .mod => "MOD"
  | .cmp => "CMP"
  | .and => "AND"
  | .or => "OR"
  | .xor => "XOR"
  | .shl => "SHL"
  | .shr => "SHR"

/-! ### Statements -/

/-- A part of a line: a label, or an operation with its operands as written. -/
inductive Stmt where
  | label (name : List Char)
  | op (o : Opcode) (operands : List (List Char))
  deriving DecidableEq, Repr

/-- The labels and the instruction of one piece of a line. Which characters a label name may hold
the spec leaves open (rule R65 gives only `name:`); the model takes any text before a `:`, without
blanks at its ends (DESIGN CHOICE, log entry 17). -/
def parsePiece (cs : List Char) : Except AsmError (List Stmt) :=
  let parts := (splitAt ':' cs).map trim
  let labels := parts.dropLast.map Stmt.label
  let text := parts.getLastD []
  if text = [] then .ok labels
  else
    let word := text.takeWhile (fun c => !isBlank c)
    let rest := trim (text.dropWhile (fun c => !isBlank c))
    match Opcode.all.find? (fun o => (mnemonic o).toList == word) with
    | none => .error (.unknownMnemonic word)
    | some o => .ok (labels ++ [.op o (if rest = [] then [] else (splitAt ',' rest).map trim)])

/-- The pieces of a text: lines without their comments, cut at `;`. -/
def pieces (text : List Char) : List (List Char) :=
  (splitAt '\n' text).flatMap fun line => splitAt ';' (line.takeWhile (· != '#'))

/-- The statements of a text. -/
def parse (text : List Char) : Except AsmError (List Stmt) :=
  (pieces text).foldlM (fun done cs => (parsePiece cs).map (done ++ ·)) []

/-! ### The two passes -/

/-- The labels and their addresses. -/
abbrev Labels := List (List Char × Nat)

/-- First pass: the address of the next byte for every label. -/
def labelsOf : Nat → Labels → List Stmt → Except AsmError Labels
  | _, ls, [] => .ok ls
  | at_, ls, .label n :: rest =>
    if n = [] ∨ (ls.lookup n).isSome then .error (.badLabel n)
    else labelsOf at_ ((n, at_) :: ls) rest
  | at_, ls, .op o _ :: rest => labelsOf (at_ + o.format.operands + 1) ls rest

/-- LDI's second operand: an immediate, or a label that is the address of a byte. -/
def immediateOrLabel (ls : Labels) (cs : List Char) : Option Byte :=
  match immediate cs with
  | some v => some v
  | none => (ls.lookup cs).bind fun a => if a < 256 then some (BitVec.ofNat 8 a) else none

/-- The operand bytes of an operation from its operands as written, in the order of rule R55. -/
def operandBytes (ls : Labels) (o : Opcode) (ops : List (List Char)) : Option (List Byte) :=
  match o.format, ops with
  | .f0, [] => some []
  | .f1R, [a] => (register a).map ([·])
  | .f2RR, [a, b] => (register a).bind fun x => (register b).map ([x, ·])
  | .f2RI, [a, b] => (register a).bind fun x => (immediateOrLabel ls b).map ([x, ·])
  | _, _ => none

/-- Second pass: the bytes, each instruction its opcode byte and its operand bytes (rule R65). -/
def encodeStmts (ls : Labels) : List Stmt → Except AsmError (List Byte)
  | [] => .ok []
  | .label _ :: rest => encodeStmts ls rest
  | .op o ops :: rest =>
    match operandBytes ls o ops with
    | none => .error (.badOperands (mnemonic o).toList)
    | some bytes => (encodeStmts ls rest).map (opcodeByte o :: bytes ++ ·)

/-- Assemble a text into the bytes of a program image. -/
def assemble (text : List Char) : Except AsmError (List Byte) := do
  let stmts ← parse text
  let ls ← labelsOf 0 [] stmts
  encodeStmts ls stmts

end Sys2Proof.Assembler
end

