-- ==== Sys2Proof/Machine/Loader.lean ====
section
/-! DEFINITION. The text form of a program image (spec/30_encoding.md rule R67), which the host's
loader reads; it stands outside the core (spec/00_scope.md rule R5). What it does at the edges the
spec leaves open is log entry 20. `step` does not depend on it. -/

namespace Sys2Proof.Machine

/-- The run of `0` and `1` characters a line begins with. -/
def binaryRun (line : List Char) : List Char := line.takeWhile fun c => c == '0' || c == '1'

/-- The bytes of a text in line order: the base-2 value of the run a line begins with; a line that
begins with none takes no address. None where a run has more than 8 digits, which the spec leaves
open. -/
def imageOfText (text : List Char) : Option (List Byte) :=
  (Assembler.splitAt '\n' text).foldr (fun line rest => rest.bind fun bytes =>
    match Assembler.numberIn 2 (binaryRun line) with
    | none => some bytes
    | some v => if (binaryRun line).length ≤ 8 then some (BitVec.ofNat 8 v :: bytes) else none)
    (some [])

end Sys2Proof.Machine
end

