-- ==== Sys2Proof/Tests/Slice0.lean ====
section
/-! SUPPORT. Tests and witnesses. Every expected result of a test is from spec/95_test_vectors.md
(the vector is named) or from the encodings of spec/30_encoding.md rule R58; a witness shows that the
hypotheses of a statement can be met together. -/

namespace Sys2Proof.Tests

open Sys2Proof Sys2Proof.Machine

/-! ### Helpers -/

/-- The reset state with bytes at address 0 on. -/
def image (bytes : List Byte) : State :=
  { State.reset with mem := Memory.writeBytes [] 0 bytes }

/-- A state with the values of R0 and R1, SP and pc given, and bytes at pc on. -/
def at_ (r0 r1 sp pc : Byte) (bytes : List Byte) : State :=
  { State.reset with
    regs := #v[r0, r1, 0, 0, 0, 0, 0, sp], pc := pc, mem := Memory.writeBytes [] pc bytes }

/-- The state of a next state. -/
def nextOf : StepResult → Option State
  | .next t => some t
  | .fault _ => none
  | .refused _ => none

/-- A reading of the state one step leads to. -/
def afterStep (s : State) (f : State → α) : Option α := (nextOf (step s)).map f

theorem answers_of_nextOf {r : StepResult} (h : (nextOf r).isSome = true) : ∃ t, r = .next t := by
  cases r with
  | next t => exact ⟨t, rfl⟩
  | fault _ => cases h
  | refused _ => cases h

/-! ### WellFormed refuses an ill-formed term for each check (rules R56, R57) -/

theorem test_wf_refuses_rA_of_one : (Instr.push 8).wf = false := by decide
theorem test_wf_refuses_rA_of_two : (Instr.add 8 0).wf = false := by decide
theorem test_wf_refuses_rB : (Instr.add 0 0xFF).wf = false := by decide
theorem test_wf_refuses_rA_of_ldi : (Instr.ldi 8 5).wf = false := by decide
theorem test_wf_ignores_immediate : (Instr.ldi 7 0xFF).wf = true := by decide

/-! ### Decode: every opcode as rule R58 writes it in binary, and V7 -/

theorem test_decode_f0 :
    decode 0b00000001 0xFF 0xFF = .ok .hlt ∧ decode 0b00010001 9 9 = .ok .ret := by decide
theorem test_decode_f1R :
    decode 0b01000101 0 9 = .ok (.push 0) ∧ decode 0b01000110 2 9 = .ok (.pop 2) ∧
    decode 0b01000111 1 9 = .ok (.prn 1) ∧ decode 0b01010000 1 9 = .ok (.call 1) ∧
    decode 0b01010100 3 9 = .ok (.jmp 3) ∧ decode 0b01010101 2 9 = .ok (.jeq 2) ∧
    decode 0b01010110 3 9 = .ok (.jne 3) ∧ decode 0b01101001 0 9 = .ok (.not 0) := by decide
theorem test_decode_f2RI : decode 0b10000010 3 0xFF = .ok (.ldi 3 0xFF) := by decide
theorem test_decode_f2RR_arithmetic :
    decode 0b10100000 1 2 = .ok (.add 1 2) ∧ decode 0b10100001 1 2 = .ok (.sub 1 2) ∧
    decode 0b10100010 1 2 = .ok (.mul 1 2) ∧ decode 0b10100011 1 2 = .ok (.div 1 2) ∧
    decode 0b10100100 1 2 = .ok (.mod 1 2) ∧ decode 0b10100111 1 2 = .ok (.cmp 1 2) := by decide
theorem test_decode_f2RR_logic :
    decode 0b10101000 1 2 = .ok (.and 1 2) ∧ decode 0b10101010 1 2 = .ok (.or 1 2) ∧
    decode 0b10101011 1 2 = .ok (.xor 1 2) ∧ decode 0b10101100 1 2 = .ok (.shl 1 2) ∧
    decode 0b10101101 1 2 = .ok (.shr 1 2) := by decide
theorem test_decode_undefined :
    decode 0x00 9 9 = .error (.undefinedOpcode 0x00) ∧
    decode 0x48 0 0 = .error (.undefinedOpcode 0x48) ∧
    decode 0xC0 0 0 = .error (.undefinedOpcode 0xC0) ∧
    decode 0xA5 0 0 = .error (.undefinedOpcode 0xA5) := by decide
theorem test_decodeBytes_truncated : decodeBytes [0x82, 0x00] = .error .truncated := by decide
theorem test_decodeTableWord : decodeTableWord 24 0x2A0082 = some (.ldi 0 42) := by decide
theorem test_decodeTableWord_short : decodeTableWord 8 0xFF47 = some (.prn 0) := by decide

/-! ### One step of each instruction -/

theorem test_ldi_sp : afterStep (image [0x82, 0x07, 0x10]) (fun t => (t.sp, t.pc)) =
    some (0x10, 3) := by decide  -- V1.2
theorem test_ldi_over_the_wrap : afterStep (at_ 0 0 0xF4 0xFE [0x82, 1, 9])
    (fun t => (t.reg 1, t.pc)) = some (9, 0x01) := by decide  -- V1.3
theorem test_ldi_illegal : afterStep (image [0x82, 8, 5]) (fun t => (t.run, t.pc)) =
    some (.faulted ⟨.illegalRegister, 0, 0x82, 8, 5⟩, 0) := by decide  -- V1.4, P7
theorem test_prn : afterStep (at_ 0xFF 0 0xF4 0 [0x47, 0]) (fun t => (t.out, t.pc)) =
    some ([.num 255], 2) := by decide  -- V1.5
theorem test_prn_sp_ignores_b : afterStep (image [0x47, 7, 0xEE]) (fun t => t.out) =
    some [.num 244] := by decide  -- V1.7, V1.9
theorem test_add : afterStep (at_ 200 100 0xF4 0 [0xA0, 0, 1])
    (fun t => (t.reg 0, t.reg 1, t.pc)) = some (44, 100, 3) := by decide  -- V2.1
theorem test_add_same_register : afterStep (at_ 0x81 0 0xF4 0 [0xA0, 0, 0]) (fun t => t.reg 0) =
    some 0x02 := by decide  -- V2.3
theorem test_sub : afterStep (at_ 3 5 0xF4 0 [0xA1, 0, 1]) (fun t => t.reg 0) =
    some 0xFE := by decide  -- V2.4
theorem test_mul : afterStep (at_ 255 255 0xF4 0 [0xA2, 0, 1]) (fun t => t.reg 0) =
    some 1 := by decide  -- V2.7
theorem test_div : afterStep (at_ 200 7 0xF4 0 [0xA3, 0, 1]) (fun t => (t.reg 0, t.fl)) =
    some (28, 0) := by decide  -- V2.9
theorem test_div_zero : afterStep (at_ 9 0 0xF4 0x17 [0xA3, 0, 1])
    (fun t => (t.run, t.reg 0, t.pc, t.out)) =
    some (.faulted ⟨.divideByZero, 0x17, 0xA3, 0, 1⟩, 9, 0x17, []) := by decide  -- V2.11
theorem test_div_zero_mod_like :
    (State.divideByZero .modLike (at_ 9 0 0xF4 0 [])).run = .halted .zeroDivisor ∧
    (State.divideByZero .modLike (at_ 9 0 0xF4 0 [])).out = [.divZeroDiag] := by decide  -- V2.12
theorem test_mod : afterStep (at_ 17 5 0xF4 0 [0xA4, 0, 1]) (fun t => (t.reg 0, t.pc)) =
    some (2, 3) := by decide  -- V2.14
theorem test_mod_zero : afterStep (at_ 7 0 0xF4 0x0A [0xA4, 0, 1])
    (fun t => (t.run, t.reg 0, t.pc, t.out)) =
    some (.halted .zeroDivisor, 7, 0x0A, [.divZeroDiag]) := by decide  -- E7
theorem test_mod_illegal_before_zero : afterStep (at_ 9 0 0xF4 0 [0xA4, 0, 9])
    (fun t => (t.run, t.out)) =
    some (.faulted ⟨.illegalRegister, 0, 0xA4, 0, 9⟩, []) := by decide  -- V2.18
theorem test_cmp_unsigned : afterStep (at_ 0x80 0x7F 0xF4 0 [0xA7, 0, 1])
    (fun t => (t.fl, t.reg 0, t.pc)) = some (0x02, 0x80, 3) := by decide  -- V3.1
theorem test_cmp_less : afterStep { at_ 0 0xFF 0xF4 0 [0xA7, 0, 1] with fl := 0x01 }
    (fun t => (t.fl, t.flE, t.flG, t.flL)) = some (0x04, false, false, true) := by decide  -- E3
theorem test_and : afterStep (at_ 0xF0 0x3C 0xF4 0 [0xA8, 0, 1]) (fun t => t.reg 0) =
    some 0x30 := by decide  -- V4.1
theorem test_or : afterStep (at_ 0xF0 0x3C 0xF4 0 [0xAA, 0, 1]) (fun t => t.reg 0) =
    some 0xFC := by decide  -- V4.2
theorem test_xor : afterStep (at_ 0xF0 0x3C 0xF4 0 [0xAB, 0, 1]) (fun t => t.reg 0) =
    some 0xCC := by decide  -- V4.3
theorem test_not_ignores_b : afterStep (at_ 0x0F 0 0xF4 0 [0x69, 0, 0x0C])
    (fun t => (t.reg 0, t.pc)) = some (0xF0, 2) := by decide  -- V4.5, V4.6
theorem test_shl : afterStep (at_ 0x81 1 0xF4 0 [0xAC, 0, 1]) (fun t => t.reg 0) =
    some 0x02 := by decide  -- V4.7
theorem test_shl_same_register : afterStep (at_ 3 0 0xF4 0 [0xAC, 0, 0]) (fun t => t.reg 0) =
    some 0x18 := by decide  -- V4.15
theorem test_shr_logical : afterStep (at_ 0x80 1 0xF4 0 [0xAD, 0, 1]) (fun t => t.reg 0) =
    some 0x40 := by decide  -- V4.11
theorem test_shr_whole_amount : afterStep (at_ 0xFF 200 0xF4 0 [0xAD, 0, 1]) (fun t => t.reg 0) =
    some 0 := by decide  -- V4.14
theorem test_push_wraps : afterStep (at_ 7 0 0x00 0x10 [0x45, 0])
    (fun t => (t.memRead 0xFF, t.sp, t.pc)) = some (7, 0xFF, 0x12) := by decide  -- V5.2
theorem test_push_sp : afterStep (image [0x45, 7]) (fun t => (t.memRead 0xF3, t.sp)) =
    some (0xF4, 0xF3) := by decide  -- V5.3
theorem test_pop_wraps : afterStep { at_ 0 0 0xFF 0 [] with mem := [(0, 0x46), (255, 0x42)] }
    (fun t => (t.reg 0, t.sp, t.pc)) = some (0x42, 0x00, 2) := by decide  -- V5.5
theorem test_pop_sp : afterStep
    { at_ 0 0 0xF0 0 [] with mem := [(0, 0x46), (1, 7), (0xF0, 0x20)] } (fun t => t.sp) =
    some 0x20 := by decide  -- V5.7
theorem test_call : afterStep (at_ 0 0x40 0xF4 0xFE [0x50, 1])
    (fun t => (t.memRead 0xF3, t.sp, t.pc)) = some (0x00, 0xF3, 0x40) := by decide  -- V6.2
theorem test_call_sp : afterStep (at_ 0 0 0xF4 0x10 [0x50, 7])
    (fun t => (t.memRead 0xF3, t.sp, t.pc)) = some (0x12, 0xF3, 0xF3) := by decide  -- V6.3
theorem test_ret : afterStep { at_ 0 0 0xF3 0 [] with mem := [(0, 0x11), (0xF3, 0x08)] }
    (fun t => (t.pc, t.sp)) = some (0x08, 0xF4) := by decide  -- V6.4
theorem test_jmp : afterStep (at_ 0x20 0 0xF4 0 [0x54, 0]) (fun t => t.pc) =
    some 0x20 := by decide  -- V6.6
theorem test_jeq_taken : afterStep { at_ 0x30 0 0xF4 0x10 [0x55, 0] with fl := 0x01 }
    (fun t => t.pc) = some 0x30 := by decide  -- V6.8
theorem test_jeq_illegal_not_taken : afterStep (image [0x55, 0x0A]) (fun t => t.run) =
    some (.faulted ⟨.illegalRegister, 0, 0x55, 0x0A, 0⟩) := by decide  -- V6.12
theorem test_jne_taken : afterStep { at_ 0x0C 0 0xF4 0x14 [0x56, 0] with fl := 0x02 }
    (fun t => t.pc) = some 0x0C := by decide  -- V6.10
theorem test_jne_falls_through : afterStep { at_ 0x0C 0 0xF4 0x14 [0x56, 0] with fl := 0x01 }
    (fun t => t.pc) = some 0x16 := by decide  -- V6.11
theorem test_hlt : afterStep (at_ 0 0 0xF4 0x0B [0x01, 0xFF, 0xFF]) (fun t => (t.run, t.pc)) =
    some (.halted .hlt, 0x0B) := by decide  -- V6.14, V6.15
theorem test_stall : afterStep (at_ 0 0 0xF4 5 [0, 9, 9]) (fun t => (t.run, t.pc, t.out)) =
    some (.running, 5, []) := by decide  -- V7.6

/-! ### Ports, host, fetch word, assembler -/

theorem test_transactions_push : stepTransactions (at_ 7 0 0xF4 0 [0x45, 0]) =
    [.read 0 0x45, .read 1 0, .read 2 0, .write 0xF3 7] := by decide  -- R37
theorem test_status_codes : (RunState.faulted ⟨.illegalRegister, 0, 0, 0, 0⟩).causeCode = some 2 ∧
    (RunState.halted .zeroDivisor).causeCode = some 1 ∧ (RunState.halted .hlt).code = 1 := by
  decide  -- R104, D3
theorem test_load_too_large : State.load (List.replicate 257 0) = .refused (.imageTooLarge 257) := by
  rw [State.load, List.length_replicate]; exact if_neg (by decide)  -- R120
theorem test_fetch_word_runs : afterStep (State.reset.withFetchWord 16 0x0747) (fun t => t.out) =
    some [.num 0xF4] := by decide  -- PRN R7
theorem test_decimal : decimalDigits 255 = ['2', '5', '5'] ∧ decimalDigits 42 = ['4', '2'] ∧
    decimalDigits 0 = ['0'] := by decide  -- V1.5, E6, V1.6
theorem test_assemble_P1 :
    Assembler.assemble "LDI R0,8; LDI R1,9; MUL R0,R1; PRN R0; HLT".toList =
    .ok [0x82, 0x00, 0x08, 0x82, 0x01, 0x09, 0xA2, 0x00, 0x01, 0x47, 0x00, 0x01] := by decide  -- E2
theorem test_assemble_label :
    Assembler.assemble "LDI SP,go # SP is R7\nPUSH R0\ngo: HLT".toList =
    .ok [0x82, 0x07, 0x05, 0x45, 0x00, 0x01] := by decide  -- R65
theorem test_assemble_refuses_R8 :
    Assembler.assemble "LDI R8,5".toList = .error (.badOperands "LDI".toList) := by decide  -- P7
theorem test_imageOfText :
    imageOfText ("# print 8\n10000010 # LDI R0,8\n\n00000000\n00001000\nhello\n".toList ++
      "01000111 # PRN R0\n00000000\n00000001 # HLT".toList) =
    some [0x82, 0x00, 0x08, 0x47, 0x00, 0x01] := by decide  -- E9

/-! ### Witnesses: the hypotheses of the statements can be met -/

/-- Another legal opcode assignment than the default: the parameter is a real one. -/
theorem witness_DecodingInvertsEncoding :
    OpcodeAssignment.Legal (fun o => opcodeByte o ^^^ 0x20) := by
  refine ⟨fun o p h => ?_, fun o => by cases o <;> decide⟩
  cases o <;> cases p <;> first | rfl | exact absurd h (by decide)

theorem witness_FetchLatchesThreeBytes :
    (at_ 7 0 0xF4 0xFE [0x45, 0]).run = .running ∧
    (∃ t, step (at_ 7 0 0xF4 0xFE [0x45, 0]) = .next t) ∧
    operandCount 0x45 ≤ 1 ∧ operandCount 0x11 = 0 :=
  ⟨rfl, answers_of_nextOf (by decide), by decide, by decide⟩

theorem witness_StepRunsDecodedInstruction :
    (image [0x82, 3, 0xFF]).run = .running ∧
    decode ((image [0x82, 3, 0xFF]).memRead 0) ((image [0x82, 3, 0xFF]).memRead (0 + 1))
      ((image [0x82, 3, 0xFF]).memRead (0 + 2)) = .ok (.ldi 3 0xFF) := by decide

theorem witness_StepRunsEncodedInstruction :
    (at_ 0 0 0xF4 0xFE (encode (.ldi 3 0xFF))).run = .running ∧
    ∀ k, (h : k < (encode (.ldi 3 0xFF)).length) →
      (at_ 0 0 0xF4 0xFE (encode (.ldi 3 0xFF))).memRead (0xFE + BitVec.ofNat 8 k) =
        (encode (.ldi 3 0xFF))[k] := by
  refine ⟨rfl, fun k h => ?_⟩
  match k, h with
  | 0, _ => rfl
  | 1, _ => rfl
  | 2, _ => rfl

theorem witness_StepChecksInOrder :
    State.reset.decodedAtPc = .error (.undefinedOpcode 0) ∧
    (image [0xA4, 0, 8]).decodedAtPc = .ok (.mod 0 8) ∧ (Instr.mod 0 8).wf = false ∧
    (image [0xA3, 0, 7]).decodedAtPc = .ok (.div (RegIdx.toByte 0) (RegIdx.toByte 7)) ∧
    (image [0xA3, 7, 0]).decodedAtPc = .ok (.div (RegIdx.toByte 7) (RegIdx.toByte 0)) ∧
    (image [0xA3, 7, 0]).reg 0 = 0 ∧
    (image [0xA4, 7, 0]).decodedAtPc = .ok (.mod (RegIdx.toByte 7) (RegIdx.toByte 0)) ∧
    (image [0xA4, 7, 0]).reg 0 = 0 ∧ (Instr.mod 7 7).wf = true ∧
    (image [0x01]).decodedAtPc = .ok .hlt ∧ Instr.hlt.wf = true := by decide

theorem witness_StepChecksInOrder_executes :
    ¬ ZeroDivisor .hlt (image [0x01]) ∧ ¬ ZeroDivisor (.add 0 1) (image [0xA0, 0, 1]) := by
  constructor <;> rintro ⟨a, b, h | h, -⟩ <;> cases h

theorem witness_UndefinedOpcodeStallsForEver :
    State.reset.run = .running ∧ ∀ o : Opcode, opcodeByte o ≠ State.reset.memRead State.reset.pc :=
  ⟨rfl, fun o => by cases o <;> decide⟩

theorem witness_JumpToItselfNeverEnds :
    (image [0x54, 0]).run = .running ∧
    (image [0x54, 0]).decodedAtPc = .ok (.jmp (RegIdx.toByte 0)) ∧
    (image [0x54, 0]).reg 0 = (image [0x54, 0]).pc := by decide

theorem witness_EndedRunsAreTerminal :
    ({ State.reset with run := .halted .hlt } : State).run = .halted .hlt ∧
    ({ State.reset with run := .faulted ⟨.divideByZero, 0, 0, 0, 0⟩ } : State).run =
      .faulted ⟨.divideByZero, 0, 0, 0, 0⟩ ∧ State.reset.run = .running := by decide

theorem witness_StepIgnoresOldLatches : State.reset.run = .running := rfl

theorem witness_OutputLogIsNeverRead :
    ∃ t, step { image [0x47, 7] with out := [.divZeroDiag] } = .next t :=
  answers_of_nextOf (by decide)

/-- Of every form with an illegal register: the least and the greatest illegal byte. -/
theorem witness_illegal_bytes : 8 ≤ (8 : Byte).toNat ∧ 8 ≤ (0xFF : Byte).toNat ∧
    ¬ 8 ≤ (7 : Byte).toNat := by decide

/-- Of DivGivesFloorOrFaults, ModGivesRemainderOrHalts, DivZeroPolicyValues and
OutputEventsAndLines: a zero and a non-zero divisor. -/
theorem witness_divisors : (at_ 9 0 0xF4 0 []).reg 1 = 0 ∧ (at_ 9 1 0xF4 0 []).reg 1 ≠ 0 := by
  decide

theorem witness_ShiftsByWholeByte : 8 ≤ ((at_ 1 8 0xF4 0 []).reg 1).toNat ∧
    8 ≤ ((at_ 1 0xFF 0xF4 0 []).reg 1).toNat := by decide

theorem witness_IllegalRegisterFaults : ∃ b ∈ (Instr.jeq 8).regOperands, 8 ≤ b.toNat := by decide

theorem witness_FaultsHaveNoEffect :
    afterStep (image [0x45, 8]) (fun t => t.run) =
      some (.faulted ⟨.illegalRegister, 0, 0x45, 8, 0⟩) := by decide

theorem witness_OnlyCmpWritesFl : (∀ rA rB, Instr.push 0 ≠ .cmp rA rB) ∧
    ∃ t, exec (.push 0) State.reset = .next t :=
  ⟨fun _ _ h => (by cases h), answers_of_nextOf (by decide)⟩

theorem witness_OnlyJeqJneReadFl :
    (∀ rA, Instr.add 0 1 ≠ .jeq rA ∧ Instr.add 0 1 ≠ .jne rA) ∧
    (∃ t, exec (.add 0 1) State.reset = .next t) ∧
    (0x04 : Byte).getLsbD 0 = State.reset.fl.getLsbD 0 ∧
    (∃ t, exec (.jeq 0) State.reset = .next t) ∧
    ({ State.reset with run := .halted .hlt } : State).endState.isSome = true :=
  ⟨fun _ => ⟨fun h => (by cases h), fun h => (by cases h)⟩, answers_of_nextOf (by decide),
    by decide, answers_of_nextOf (by decide), by decide⟩

theorem witness_NextPcOfEveryStep :
    afterStep (image [0x01]) (fun t => decide (t.run = .running)) = some false ∧
    State.reset.decodedAtPc = .error (.undefinedOpcode 0) ∧
    afterStep (at_ 0 0 0xF4 0xFE [0x82, 1, 9]) (fun t => t.run) = some .running ∧
    targetOf (.ldi 1 9) (at_ 0 0 0xF4 0xFE [0x82, 1, 9]) = none ∧
    afterStep (image [0x56, 0]) (fun t => t.run) = some .running ∧
    targetOf (.jne 0) (image [0x56, 0]) = some 0 ∧ targetOf (.jeq 0) (image [0x55, 0]) = none := by
  decide

theorem witness_OnlyPushAndCallStore :
    (nextOf (exec (.push 7) State.reset)).map (fun t => t.memRead 0xF3) = some 0xF4 ∧
    State.reset.memRead 0xF3 = 0 := by decide

theorem witness_OnlyNamedRegistersChange :
    (nextOf (exec (.pop 2) State.reset)).map (fun t => t.reg 7) = some 0xF5 ∧
    State.reset.reg 7 = 0xF4 := by decide

theorem witness_CanonicalMemoriesAreEqual :
    Memory.Wf [(0, 1), (0xFF, 2)] ∧ ∀ x, Memory.read [(0, 1), (0xFF, 2)] x =
      Memory.read (Memory.write [(0, 1)] 0xFF 2) x := ⟨by decide, fun _ => rfl⟩

/-- Of CallThenRetReturns: the state CALL leaves is one its RET finds. -/
theorem witness_CallThenRetReturns : ∃ t, exec (.call 1) State.reset = .next t ∧ ∃ u : State,
    u.sp = t.sp ∧ u.memRead u.sp = t.memRead t.sp := by
  obtain ⟨t, ht⟩ := answers_of_nextOf (r := exec (.call 1) State.reset) (by decide)
  exact ⟨t, ht, t, rfl, rfl⟩

theorem witness_StackWrapsUnchecked : (at_ 7 0 0x00 0 []).sp = 0x00 ∧
    (at_ 7 0 0xFF 0 []).sp = 0xFF ∧ (0 : RegIdx) ≠ 7 ∧ (at_ 7 0 0x00 0 []).sp = 0xFF + 1 := by decide

theorem witness_TransactionsOfAStep :
    (image [0x45, 7]).decodedAtPc = .ok (.push (RegIdx.toByte 7)) ∧
    (image [0x50, 0]).decodedAtPc = .ok (.call (RegIdx.toByte 0)) ∧
    (image [0x46, 7]).decodedAtPc = .ok (.pop (RegIdx.toByte 7)) ∧
    (image [0x11]).decodedAtPc = .ok .ret ∧
    (image [0x45, 8]).decodedAtPc = .ok (.push 8) ∧ (Instr.push 8).wf = false ∧
    (image [0x01]).decodedAtPc = .ok .hlt ∧
    State.reset.decodedAtPc = .error (.undefinedOpcode 0) := by decide

theorem witness_StepMemoryIsItsTransactions : ∃ t, step (image [0x50, 0]) = .next t :=
  answers_of_nextOf (by decide)

theorem witness_PushedCodeIsFetched :
    (at_ 1 0 9 6 [0x45, 0]).decodedAtPc = .ok (.push (RegIdx.toByte 0)) ∧
    (at_ 1 0 9 6 [0x45, 0]).sp - 1 = (at_ 1 0 9 6 [0x45, 0]).pc + 2 ∧
    (at_ 1 0 8 6 [0x45, 0]).decodedAtPc = .ok (.push (RegIdx.toByte 0)) ∧
    (at_ 1 0 8 6 [0x45, 0]).sp - 1 = (at_ 1 0 8 6 [0x45, 0]).pc + 1 := by decide

theorem witness_LoadPlacesImage : (List.replicate 256 (0x01 : Byte)).length ≤ 256 ∧
    256 < (List.replicate 257 (0x01 : Byte)).length := by
  simp only [List.length_replicate]; decide

theorem witness_StepKeepsInvariant : State.Inv { State.reset with mem := [(0, 0x01)] } ∧
    ∃ t, step { State.reset with mem := [(0, 0x01)] } = .next t :=
  ⟨⟨by decide, by decide, trivial⟩, answers_of_nextOf (by decide)⟩

theorem witness_ReachableStatesMeetInvariant : Reachable (image [0x01]) :=
  .load (image := [0x01]) rfl

theorem witness_FlLayoutHolds : Reachable (image [0xA7, 0, 1]) ∧
    afterStep (image [0xA7, 0, 1]) (fun t => decide (t.fl ≠ (image [0xA7, 0, 1]).fl)) = some true ∧
    ∃ t, exec (.cmp (RegIdx.toByte 0) (RegIdx.toByte 1)) (image [0xA7, 0, 1]) = .next t :=
  ⟨.load (image := [0xA7, 0, 1]) rfl, by decide, answers_of_nextOf (by decide)⟩

end Sys2Proof.Tests
end

section
/-! PROOFS. The effects of the instructions, read both ways: exec answers each of them. With
`effect_of_exec` a fact about every instruction is one about the relation `Effect`. -/

namespace Sys2Proof.Machine

/-- An ill-formed instruction faults on its illegal register and does nothing else (rule R56). -/
theorem exec_illegal {i : Instr} (hi : i.wf = false) (s : State) :
    exec i s = .next (s.raiseFault .illegalRegister) := by
  obtain ⟨b, hb, h8⟩ := wf_eq_false.mp hi
  cases i with
  | hlt | ret => cases hb
  | push rA | pop rA | prn rA | call rA | jmp rA | jeq rA | jne rA | not rA | ldi rA imm =>
    obtain rfl : b = rA := List.mem_singleton.mp hb
    exact withReg_illegal h8 s _
  | add rA rB | sub rA rB | mul rA rB | div rA rB | mod rA rB | cmp rA rB
  | and rA rB | or rA rB | xor rA rB | shl rA rB | shr rA rB =>
    obtain rfl | rfl : b = rA ∨ b = rB := List.mem_pair.mp hb
    · exact withRegs_illegal (.inl h8) s _
    · exact withRegs_illegal (.inr h8) s _

/-- Every effect of an instruction is what exec answers: the converse of `effect_of_exec`. -/
theorem exec_of_effect {i : Instr} {s t : State} (e : Effect s i t) : exec i s = .next t := by
  cases e with
  | illegal h => exact exec_illegal h s
  | hlt => exact exec_hlt s
  | ret => exact exec_ret s
  | push a => exact exec_push a s
  | pop a => exact exec_pop a s
  | prn a => exact exec_prn a s
  | call a => exact exec_call a s
  | jmp a => exact exec_jmp a s
  | jeq a => exact exec_jeq a s
  | jne a => exact exec_jne a s
  | not a => exact exec_not a s
  | ldi a imm => exact exec_ldi a imm s
  | add a b => exact exec_add a b s
  | sub a b => exact exec_sub a b s
  | mul a b => exact exec_mul a b s
  | div a b h => exact exec_div a b h
  | divZero a b h => exact exec_div_zero a b h
  | mod a b h => exact exec_mod a b h
  | modZero a b h => exact exec_mod_zero a b h
  | cmp a b => exact exec_cmp a b s
  | and a b => exact exec_and a b s
  | or a b => exact exec_or a b s
  | xor a b => exact exec_xor a b s
  | shl a b => exact exec_shl a b s
  | shr a b => exact exec_shr a b s

end Sys2Proof.Machine
end

section
/-! PROOFS. Who writes FL and who reads it (spec/10_state.md rules R15 and R16). -/

namespace Sys2Proof.Machine

/-! ### Writers -/

/-- DIV by zero keeps FL under either policy. -/
@[simp] theorem State.divideByZero_fl (p : Config.DivZeroPolicy) (s : State) :
    (s.divideByZero p).fl = s.fl := by
  cases p <;> rfl

/-- The effect of an instruction other than CMP keeps FL. -/
theorem Effect.fl_eq {i : Instr} {s t : State} (e : Effect s i t)
    (hi : ∀ rA rB, i ≠ .cmp rA rB) : t.fl = s.fl := by
  cases e with
  | cmp a b => exact absurd rfl (hi _ _)
  | divZero a b h => exact State.divideByZero_fl _ s
  | jeq a | jne a => split <;> rfl
  | _ => rfl

/-- CMP answers the same state whatever FL was before it. -/
theorem exec_cmp_setFl (a b : RegIdx) (s : State) (v : Byte) :
    exec (.cmp a.toByte b.toByte) (s.setFl v) = exec (.cmp a.toByte b.toByte) s := by
  rw [exec_cmp, exec_cmp]
  rfl

/-- Settles O34: the effects of the instructions, CMP's apart, keep FL, and CMP's does not depend on
the old FL. -/
theorem onlyCmpWritesFl : Obligations.OnlyCmpWritesFl := by
  refine ⟨fun i s t hi h => (effect_of_exec h).fl_eq hi, fun s a b v => ?_⟩
  exact ⟨_, exec_cmp a b s, (exec_cmp_setFl a b s v).trans (exec_cmp a b s)⟩

/-! ### Readers -/

/-- DIV by zero does not read FL under either policy. -/
theorem State.divideByZero_setFl (p : Config.DivZeroPolicy) (s : State) (v : Byte) :
    (s.setFl v).divideByZero p = (s.divideByZero p).setFl v := by
  cases p <;> rfl

/-- A branch on bit 0 of FL takes the same way under another FL of the same bit 0. -/
theorem State.ite_flE_setFl {s : State} {v : Byte} (hv : (s.setFl v).flE = s.flE) (t u : State) :
    (if s.flE then t else u).setFl v =
      if (s.setFl v).flE then t.setFl v else u.setFl v := by
  rw [hv, apply_ite (State.setFl · v)]

/-- With another FL an instruction has the same effect but for FL, if it is no JEQ and no JNE or if
bit 0 of the other FL is the same. FL ends as CMP sets it, or as it was given to any other
instruction. -/
theorem Effect.exists_setFl {i : Instr} {s t : State} (e : Effect s i t) {v : Byte}
    (hv : (∀ rA, i ≠ .jeq rA ∧ i ≠ .jne rA) ∨ (s.setFl v).flE = s.flE) :
    ∃ w, Effect (s.setFl v) i (t.setFl w) := by
  cases e with
  | cmp a b => exact ⟨cmpFlags (s.reg a) (s.reg b), .cmp a b⟩
  | jeq a =>
    have hE : (s.setFl v).flE = s.flE := hv.resolve_left fun hn => (hn _).1 rfl
    exact ⟨v, State.ite_flE_setFl hE _ _ ▸ .jeq a⟩
  | jne a =>
    have hE : (s.setFl v).flE = s.flE := hv.resolve_left fun hn => (hn _).2 rfl
    exact ⟨v, State.ite_flE_setFl hE _ _ ▸ .jne a⟩
  | divZero a b h => exact ⟨v, State.divideByZero_setFl _ s v ▸ .divZero a b h⟩
  | illegal h => exact ⟨v, .illegal h⟩
  | hlt => exact ⟨v, .hlt⟩
  | ret => exact ⟨v, .ret⟩
  | push a => exact ⟨v, .push a⟩
  | pop a => exact ⟨v, .pop a⟩
  | prn a => exact ⟨v, .prn a⟩
  | call a => exact ⟨v, .call a⟩
  | jmp a => exact ⟨v, .jmp a⟩
  | not a => exact ⟨v, .not a⟩
  | ldi a imm => exact ⟨v, .ldi a imm⟩
  | add a b => exact ⟨v, .add a b⟩
  | sub a b => exact ⟨v, .sub a b⟩
  | mul a b => exact ⟨v, .mul a b⟩
  | div a b h => exact ⟨v, .div a b h⟩
  | mod a b h => exact ⟨v, .mod a b h⟩
  | modZero a b h => exact ⟨v, .modZero a b h⟩
  | and a b => exact ⟨v, .and a b⟩
  | or a b => exact ⟨v, .or a b⟩
  | xor a b => exact ⟨v, .xor a b⟩
  | shl a b => exact ⟨v, .shl a b⟩
  | shr a b => exact ⟨v, .shr a b⟩

/-- The same of exec's answer. -/
theorem exec_exists_setFl {i : Instr} {s t : State} {v : Byte} (h : exec i s = .next t)
    (hv : (∀ rA, i ≠ .jeq rA ∧ i ≠ .jne rA) ∨ (s.setFl v).flE = s.flE) :
    ∃ w, exec i (s.setFl v) = .next (t.setFl w) :=
  ((effect_of_exec h).exists_setFl hv).imp fun _ => exec_of_effect

/-- The end state the host reads shows FL (rule R118). -/
theorem State.endState_fl {s : State} {e : EndState} (h : s.endState = some e) : e.fl = s.fl := by
  unfold State.endState at h
  split at h <;> cases h <;> rfl

/-- Settles O35: an effect is the same but for FL under another FL unless it is a branch's, a branch
reads bit 0 only, and the end state copies FL. -/
theorem onlyJeqJneReadFl : Obligations.OnlyJeqJneReadFl := by
  refine ⟨fun i s t v hi h => exec_exists_setFl h (.inl hi), fun i s t v hv h => ?_,
    fun s e h => State.endState_fl h⟩
  have hE : (s.setFl v).flE = s.flE := hv
  exact exec_exists_setFl h (.inr hE)

end Sys2Proof.Machine
end

section
/-! PROOFS. A byte read after a byte was written (spec/20_memory.md rule R28). -/

namespace Sys2Proof.Machine

/-- Reading after a write. A write of 0x00 takes the address out of the list, any other puts the byte
in; the memory need not be in canonical form. -/
theorem Memory.read_write (m : Memory) (a v x : Byte) :
    (m.write a v).read x = if x = a then v else m.read x := by
  unfold Memory.write Memory.read
  split
  case isTrue hv => simp only [Memory.lookup_erase, BitVec.toNat_inj, hv]
  case isFalse => simp only [Memory.lookup_insert, BitVec.toNat_inj]

@[simp] theorem State.memRead_memWrite (s : State) (a v x : Byte) :
    (s.memWrite a v).memRead x = if x = a then v else s.memRead x :=
  Memory.read_write s.mem a v x

/-- A write to memory changes no register, FL, latch, run state or log. -/
theorem State.memWrite_frame (s : State) (a v : Byte) : SameExceptRegs [] s (s.memWrite a v) where
  regs := fun r _ => State.reg_memWrite s a v r
  fl := State.memWrite_fl s a v
  run := State.memWrite_run s a v
  ir := State.memWrite_ir s a v
  opA := State.memWrite_opA s a v
  opB := State.memWrite_opB s a v
  out := State.memWrite_out s a v

/-- Settles O42: reading after a write, and the write's frame. -/
theorem writeThenRead : Obligations.WriteThenRead := fun s addr v =>
  ⟨State.memRead_memWrite s addr v, State.memWrite_frame s addr v, State.memWrite_pc s addr v⟩

end Sys2Proof.Machine
end

section
/-! PROOFS. The stack primitives (spec/43_stack.md rules R90 and R91). -/

namespace Sys2Proof.Machine

/-! ### Frames -/

/-- A write to a register changes only that register. -/
theorem State.setReg_frame (s : State) (r : RegIdx) (v : Byte) :
    SameExceptRegs [r] s (s.setReg r v) where
  regs := fun q hq => by simp [List.mem_singleton.not.mp hq]
  fl := State.setReg_fl s r v
  run := State.setReg_run s r v
  ir := State.setReg_ir s r v
  opA := State.setReg_opA s r v
  opB := State.setReg_opB s r v
  out := State.setReg_out s r v

/-- A write to memory adds no register to those that may have changed. -/
theorem SameExceptRegs.memWrite {rs : List RegIdx} {s t : State} (h : SameExceptRegs rs s t)
    (a v : Byte) : SameExceptRegs rs s (t.memWrite a v) :=
  ⟨h.regs, h.fl, h.run, h.ir, h.opA, h.opB, h.out⟩

theorem State.push_frame (s : State) (v : Byte) : SameExceptRegs [7] s (s.push v) :=
  (State.setReg_frame s 7 (s.sp - 1)).memWrite (s.sp - 1) v

theorem State.popState_frame (s : State) : SameExceptRegs [7] s s.popState :=
  State.setReg_frame s 7 (s.sp + 1)

/-! ### SP and memory -/

@[simp] theorem State.sp_push (s : State) (v : Byte) : (s.push v).sp = s.sp - 1 :=
  State.reg_push s v 7

@[simp] theorem State.sp_popState (s : State) : s.popState.sp = s.sp + 1 :=
  State.reg_popState s 7

/-- Push writes its byte one below the old SP. -/
@[simp] theorem State.memRead_push (s : State) (v x : Byte) :
    (s.push v).memRead x = if x = s.sp - 1 then v else s.memRead x :=
  State.memRead_memWrite (s.setReg 7 (s.sp - 1)) (s.sp - 1) v x

theorem State.memSameExcept_push (s : State) (v : Byte) :
    MemSameExcept (s.push v).sp s (s.push v) := fun x hx => by
  rw [State.sp_push] at hx
  rw [State.memRead_push, if_neg hx]

theorem State.memSame_popState (s : State) : MemSame s s.popState := State.memRead_popState s

/-- SP goes down by one modulo 256, from 0x00 to 0xFF. -/
theorem State.sp_push_toNat (s : State) (v : Byte) :
    (s.push v).sp.toNat = (s.sp.toNat + 255) % 256 := by
  rw [State.sp_push]; bv_omega

/-- SP goes up by one modulo 256, from 0xFF to 0x00. -/
theorem State.sp_popState_toNat (s : State) : s.popState.sp.toNat = (s.sp.toNat + 1) % 256 := by
  rw [State.sp_popState]; bv_omega

/-- Settles O44: where SP and the byte go, and the frames of push and pop; register 7 is SP. -/
theorem stackPrimitives : Obligations.StackPrimitives := by
  refine ⟨fun s v => ⟨State.sp_push_toNat s v, ?_, State.push_pc s v, State.push_frame s v,
      State.memSameExcept_push s v⟩,
    fun s => ⟨rfl, State.sp_popState_toNat s, State.popState_pc s, State.popState_frame s,
      State.memSame_popState s⟩⟩
  rw [← State.sp_eq_reg, State.sp_push, State.memRead_push, if_pos rfl]

end Sys2Proof.Machine
end

section
/-! PROOFS. The decoder and the encoder: they are inverse under every legal opcode assignment
(spec/30_encoding.md rules R58, R59 and R63). -/

namespace Sys2Proof

/-! ### Byte lists -/

theorem Format.operands_le_two (f : Format) : f.operands ≤ 2 := by cases f <;> decide

/-- The first two entries of a list, read with a default, hold its first `n ≤ 2` entries. -/
theorem take_getD_pair (l : List Byte) {n : Nat} (hn : n ≤ 2) (hl : n ≤ l.length) :
    [l.getD 0 0, l.getD 1 0].take n = l.take n := by
  match n, l with
  | 0, _ => rfl
  | 1, x :: _ => rfl
  | 2, x :: y :: _ => rfl

/-- The encoding of the instruction an operation makes: its byte, then as many of the two operand
bytes as its format has. -/
theorem encodeWith_withOperands (ob : OpcodeAssignment) (o : Opcode) (a b : Byte) :
    encodeWith ob (o.withOperands a b) = ob o :: [a, b].take o.format.operands := by
  rw [encodeWith, Opcode.withOperands_opcode, Opcode.withOperands_operandBytes]

/-- An encoding decodes to its instruction, and leaves the bytes after it. -/
theorem decodeBytesWith_encodeWith {ob : OpcodeAssignment} (hob : ob.Legal) (i : Instr)
    (rest : List Byte) : decodeBytesWith ob (encodeWith ob i ++ rest) = .ok (i, rest) := by
  obtain ⟨hinj, hcount⟩ := hob
  have hlen : operandCount (ob i.opcode) = i.operandBytes.length :=
    (hcount i.opcode).trans i.operandBytes_length.symm
  simp only [encodeWith, List.cons_append, decodeBytesWith, decodeOpcodeWith_self hinj,
    Instr.withOperands_eq, hlen, List.length_append, Nat.le_add_right, if_true, List.drop_left]

/-- Bytes that decode begin with the encoding of what they decode to. -/
theorem eq_encodeWith_of_decodeBytesWith {ob : OpcodeAssignment} (hob : ob.Legal)
    {bs rest : List Byte} {i : Instr} (h : decodeBytesWith ob bs = .ok (i, rest)) :
    bs = encodeWith ob i ++ rest := by
  cases bs with
  | nil => cases h
  | cons ir tl =>
    cases ho : decodeOpcodeWith ob ir with
    | none => simp [decodeBytesWith, ho] at h
    | some o =>
      obtain rfl := decodeOpcodeWith_some ho
      simp only [decodeBytesWith, ho, hob.2 o] at h
      split at h
      case isFalse => cases h
      case isTrue hlen =>
        cases h
        rw [encodeWith_withOperands, take_getD_pair tl o.format.operands_le_two hlen,
          List.cons_append, List.take_append_drop]

/-- Settles O3: an encoding decodes to its instruction, and only an encoding does. -/
theorem decodingInvertsEncoding : Obligations.DecodingInvertsEncoding := fun _ hob _ rest i =>
  ⟨eq_encodeWith_of_decodeBytesWith hob, fun h => h ▸ decodeBytesWith_encodeWith hob i rest⟩

/-! ### The default opcode table -/

theorem decodeOpcodeWith_opcodeByte (o : Opcode) :
    decodeOpcodeWith opcodeByte (opcodeByte o) = some o := by cases o <;> rfl

theorem operandCount_opcodeByte (o : Opcode) :
    operandCount (opcodeByte o) = o.format.operands := by cases o <;> rfl

theorem opcodeByte_ne_zero (o : Opcode) : opcodeByte o ≠ 0x00 := by cases o <;> decide

/-- The default table meets the constraints of rule R59: each byte finds its own operation, so no two
operations share one. -/
theorem opcodeByte_legal : OpcodeAssignment.Legal opcodeByte := by
  refine ⟨fun o p h => Option.some.inj ?_, operandCount_opcodeByte⟩
  rw [← decodeOpcodeWith_opcodeByte o, h, decodeOpcodeWith_opcodeByte]

/-- Settles O1: the default table is a legal assignment, and no format has three operand bytes. -/
theorem opcodeTableMeetsConstraints : Obligations.OpcodeTableMeetsConstraints := by
  refine ⟨opcodeByte_legal.1, opcodeByte_legal.2, fun o h => ?_⟩
  have := o.format.operands_le_two
  rw [operandCount_opcodeByte] at h
  omega

/-- Settles O2: the model's decoder evaluated on the eleven words. -/
theorem writtenOutWordsDecode : Obligations.WrittenOutWordsDecode := by
  unfold Obligations.WrittenOutWordsDecode
  decide

/-- Settles O5: no operation is found exactly for the bytes in no row of the table; the 234 are
counted. -/
theorem undefinedBytesAreRejected : Obligations.UndefinedBytesAreRejected := by
  refine ⟨fun ob ir a b r => ?_, opcodeByte_ne_zero, by decide +kernel⟩
  rw [decodeWith_eq_error, decodeOpcodeWith_eq_none, and_comm]

/-- The encoding of an instruction is its encoding both ways. -/
theorem hasEncoding_encode (i : Instr) : Machine.HasEncoding i (encode i) :=
  ⟨rfl, decodeBytesWith_encodeWith opcodeByte_legal i⟩

/-! ### The fetched bytes -/

/-- An operation makes the same instruction of operand bytes that agree as far as its format goes. -/
theorem Opcode.withOperands_congr {o : Opcode} {a b a' b' : Byte}
    (h : [a, b].take o.format.operands = [a', b'].take o.format.operands) :
    o.withOperands a b = o.withOperands a' b' := by
  have hself := fun i : Instr => i.withOperands_eq []
  rw [← hself (o.withOperands a b), ← hself (o.withOperands a' b'), withOperands_operandBytes,
    withOperands_operandBytes, withOperands_opcode, withOperands_opcode, h]

/-- The fetched bytes decode alike when they agree as far as the opcode byte's operand count goes. -/
theorem decode_congr {ir a b a' b' : Byte}
    (h : [a, b].take (operandCount ir) = [a', b'].take (operandCount ir)) :
    decode ir a b = decode ir a' b' := by
  unfold decode decodeWith
  cases ho : decodeOpcodeWith opcodeByte ir with
  | none => rfl
  | some o =>
    rw [← decodeOpcodeWith_some ho, operandCount_opcodeByte] at h
    exact congrArg Except.ok (Opcode.withOperands_congr h)

/-- An instruction's opcode byte and two bytes that begin with its operand bytes decode to it. -/
theorem decode_opcodeByte {i : Instr} {a b : Byte}
    (h : [a, b].take i.opcode.format.operands = i.operandBytes) :
    decode (opcodeByte i.opcode) a b = .ok i := by
  have hlen := i.operandBytes_length
  refine decodeWith_eq_ok.mpr ⟨i.opcode, decodeOpcodeWith_opcodeByte _, ?_⟩
  have hself := i.withOperands_eq []
  rw [List.append_nil] at hself
  refine hself.symm.trans (Opcode.withOperands_congr ?_)
  rw [h, take_getD_pair _ (Format.operands_le_two _) hlen.ge, ← hlen, List.take_length]

end Sys2Proof
end

section
/-! PROOFS. The step: what it fetches, what it runs, and where no step is taken
(spec/30_encoding.md rules R52, R53 and R62). -/

namespace Sys2Proof.Machine

/-! ### The fetch -/

/-- The bytes the fetch latched are the bytes at pc. -/
theorem State.decode_fetch (s : State) :
    decode s.fetch.ir s.fetch.opA s.fetch.opB = s.decodedAtPc := rfl

/-! ### What a step does -/

theorem step_of_decoded {s : State} {i : Instr} (hr : s.run = .running)
    (hd : s.decodedAtPc = .ok i) : step s = exec i s.fetch := by
  simp only [step, hr, State.decode_fetch, hd]

theorem step_of_rejected {s : State} {r : DecodeReject} (hr : s.run = .running)
    (hd : s.decodedAtPc = .error r) : step s = .next s.fetch := by
  simp only [step, hr, State.decode_fetch, hd, stall]

theorem step_of_halted {s : State} {c : HaltCause} (hr : s.run = .halted c) :
    step s = .fault (.notRunningHalted c) := by simp only [step, hr]

theorem step_of_faulted {s : State} {r : FaultRecord} (hr : s.run = .faulted r) :
    step s = .fault (.notRunningFaulted r) := by simp only [step, hr]

theorem stepTransactions_of_decoded {s : State} {i : Instr} (hr : s.run = .running)
    (hd : s.decodedAtPc = .ok i) :
    stepTransactions s = fetchTransactions s ++ dataTransactions i s.fetch := by
  simp only [stepTransactions, hr, State.decode_fetch, hd]

theorem stepTransactions_of_rejected {s : State} {r : DecodeReject} (hr : s.run = .running)
    (hd : s.decodedAtPc = .error r) : stepTransactions s = fetchTransactions s := by
  simp only [stepTransactions, hr, State.decode_fetch, hd, List.append_nil]

/-- The transactions of a step begin with the reads of its fetch. -/
theorem exists_stepTransactions_eq {s : State} (hr : s.run = .running) :
    ∃ rest, fetchTransactions s ++ rest = stepTransactions s := by
  cases hd : s.decodedAtPc with
  | error r => exact ⟨[], by rw [stepTransactions_of_rejected hr hd, List.append_nil]⟩
  | ok i => exact ⟨_, (stepTransactions_of_decoded hr hd).symm⟩

/-- Everything a step that answers a next state can be: in RUNNING, a stall on bytes that are no
instruction, or an effect of the instruction at pc on the state after the fetch. -/
theorem step_cases {s t : State} (h : step s = .next t) :
    s.run = .running ∧
      ((∃ r, s.decodedAtPc = .error r ∧ t = s.fetch) ∨
        ∃ i, s.decodedAtPc = .ok i ∧ Effect s.fetch i t) := by
  cases hr : s.run with
  | halted c => rw [step_of_halted hr] at h; cases h
  | faulted r => rw [step_of_faulted hr] at h; cases h
  | running =>
    refine ⟨rfl, ?_⟩
    cases hd : s.decodedAtPc with
    | error r =>
      rw [step_of_rejected hr hd] at h
      cases h
      exact .inl ⟨r, rfl, rfl⟩
    | ok i => exact .inr ⟨i, rfl, effect_of_exec (step_of_decoded hr hd ▸ h)⟩

/-! ### The instruction at pc -/

/-- The bytes at pc are rejected exactly when the first is in no row of the opcode table. -/
theorem State.decodedAtPc_eq_error {s : State} {r : DecodeReject} :
    s.decodedAtPc = .error r ↔
      r = .undefinedOpcode (s.memRead s.pc) ∧ ∀ o, opcodeByte o ≠ s.memRead s.pc := by
  rw [State.decodedAtPc, decode, decodeWith_eq_error, decodeOpcodeWith_eq_none, and_comm]

/-- Bytes in memory that are an instruction's encoding decode to it. -/
theorem State.decodedAtPc_of_encode {s : State} {i : Instr}
    (h : ∀ k, (hk : k < (encode i).length) →
      s.memRead (s.pc + BitVec.ofNat 8 k) = (encode i)[k]) : s.decodedAtPc = .ok i := by
  have hlen : (encode i).length = i.operandBytes.length + 1 := rfl
  have hn := i.operandBytes_length
  have hn2 := i.opcode.format.operands_le_two
  have hop : s.memRead s.pc = opcodeByte i.opcode := by
    rw [← BitVec.add_zero s.pc]
    exact h 0 (by omega)
  rw [State.decodedAtPc, hop]
  refine decode_opcodeByte (List.ext_getElem (by simp; omega) fun k hk1 hk => ?_)
  have hbyte : s.memRead (s.pc + BitVec.ofNat 8 (k + 1)) = i.operandBytes[k] :=
    h (k + 1) (by omega)
  rw [← hbyte, List.getElem_take]
  match k, (show k < 2 by omega) with
  | 0, _ => rfl
  | 1, _ => rfl

/-- Settles O6: a step on bytes that decode runs their instruction. -/
theorem stepRunsDecodedInstruction : Obligations.StepRunsDecodedInstruction := fun _ _ =>
  step_of_decoded

/-- Settles O7: an encoding in memory decodes to its instruction, whatever stands after it. -/
theorem stepRunsEncodedInstruction : Obligations.StepRunsEncodedInstruction := fun _ _ hr henc =>
  step_of_decoded hr (State.decodedAtPc_of_encode henc)

/-- Settles O13: the fetch overwrites the latches, and nothing else of a step reads them. -/
theorem stepIgnoresOldLatches : Obligations.StepIgnoresOldLatches := fun _ _ _ _ _ => rfl

/-- Settles O12: no step and an end state outside RUNNING, no end state in RUNNING. -/
theorem endedRunsAreTerminal : Obligations.EndedRunsAreTerminal := by
  refine ⟨fun s c hr => ⟨step_of_halted hr, ?_⟩, fun s r hr => ⟨step_of_faulted hr, ?_⟩,
    fun s hr => ?_, fun s => rfl⟩ <;> simp only [State.endState, hr]

end Sys2Proof.Machine
end

section
/-! PROOFS. How an effect leaves the run state and the latches, and how a step ends
(spec/60_exceptions.md sections 1 and 2). -/

namespace Sys2Proof.Machine

/-! ### Every instruction answers -/

theorem withReg_answers {rA : Byte} {s : State} {k : RegIdx → StepResult}
    (hk : ∀ a, ∃ t, k a = .next t) : ∃ t, withReg rA s k = .next t := by
  unfold withReg
  split
  · exact hk _
  · exact ⟨_, rfl⟩

theorem withRegs_answers {rA rB : Byte} {s : State} {k : RegIdx → RegIdx → StepResult}
    (hk : ∀ a b, ∃ t, k a b = .next t) : ∃ t, withRegs rA rB s k = .next t :=
  withReg_answers fun a => withReg_answers (hk a)

/-- Settles O9: both outcomes of the register checks are next states, and so is each meaning. -/
theorem everyInstructionAnswers : Obligations.EveryInstructionAnswers := by
  intro i s
  cases i with
  | hlt | ret => exact ⟨_, rfl⟩
  | push _ | pop _ | prn _ | call _ | jmp _ | jeq _ | jne _ | not _ | ldi _ _ =>
    exact withReg_answers fun _ => ⟨_, rfl⟩
  | add _ _ | sub _ _ | mul _ _ | cmp _ _ | and _ _ | or _ _ | xor _ _ | shl _ _ | shr _ _ =>
    exact withRegs_answers fun _ _ => ⟨_, rfl⟩
  | div _ _ | mod _ _ =>
    refine withRegs_answers fun _ _ => ?_
    split <;> exact ⟨_, rfl⟩

/-- In RUNNING every step answers a next state. -/
theorem step_answers {s : State} (hr : s.run = .running) : ∃ t, step s = .next t := by
  cases hd : s.decodedAtPc with
  | error r => exact ⟨_, step_of_rejected hr hd⟩
  | ok i => exact step_of_decoded hr hd ▸ everyInstructionAnswers i s.fetch

/-! ### How an instruction leaves the run state -/

/-- The ways an instruction leaves the run state: as it was, or ended in one of four ways, each with
all that it does. -/
inductive Ending (s : State) : Instr → State → Prop where
  | goesOn {i : Instr} {t : State} (hi : i ≠ .hlt) (hrun : t.run = s.run) : Ending s i t
  | hlt : Ending s .hlt (s.halt .hlt)
  | zeroDivisor (a b : RegIdx) (hb : s.reg b = 0) :
    Ending s (.mod a.toByte b.toByte) s.zeroDivisorHalt
  | divideByZero (a b : RegIdx) (hb : s.reg b = 0) :
    Ending s (.div a.toByte b.toByte) (s.raiseFault .divideByZero)
  | illegalRegister {i : Instr} (hi : i.wf = false) : Ending s i (s.raiseFault .illegalRegister)

/-- An effect leaves the run state in one of these ways. -/
theorem Effect.ending {i : Instr} {s t : State} (e : Effect s i t) : Ending s i t := by
  cases e with
  | illegal hi => exact .illegalRegister hi
  | hlt => exact .hlt
  | divZero a b hb => exact .divideByZero a b hb
  | modZero a b hb => exact .zeroDivisor a b hb
  | jeq a | jne a => exact .goesOn nofun (by split <;> rfl)
  | _ => exact .goesOn nofun rfl

/-- No instruction writes the latches. -/
theorem Effect.latches_eq {i : Instr} {s t : State} (e : Effect s i t) :
    t.ir = s.ir ∧ t.opA = s.opA ∧ t.opB = s.opB := by
  cases e with
  | jeq a | jne a => split <;> exact ⟨rfl, rfl, rfl⟩
  | _ => exact ⟨rfl, rfl, rfl⟩

/-- After a step the latches hold the bytes that were at pc. -/
theorem step_latches {s t : State} (h : step s = .next t) :
    t.ir = s.memRead s.pc ∧ t.opA = s.memRead (s.pc + 1) ∧ t.opB = s.memRead (s.pc + 2) := by
  obtain ⟨-, ⟨r, -, rfl⟩ | ⟨i, -, e⟩⟩ := step_cases h
  · exact ⟨rfl, rfl, rfl⟩
  · exact e.latches_eq

/-- Settles O4: no instruction writes the latches of its fetch, and the decoder uses as many operand
bytes as the opcode byte counts. -/
theorem fetchLatchesThreeBytes : Obligations.FetchLatchesThreeBytes := by
  refine ⟨fun s t hr h => ?_, fun ir a b a' b' => ⟨fun hc => decode_congr ?_, fun hc => ?_⟩⟩
  · obtain ⟨hir, ha, hb⟩ := step_latches h
    have h1 : BitVec.ofNat 8 ((s.pc.toNat + 1) % 256) = s.pc + 1 := by bv_omega
    have h2 : BitVec.ofNat 8 ((s.pc.toNat + 2) % 256) = s.pc + 2 := by bv_omega
    rw [h1, h2, BitVec.ofNat_toNat, BitVec.setWidth_eq, hir, ha, hb]
    exact ⟨rfl, rfl, rfl, exists_stepTransactions_eq hr⟩
  · interval_cases operandCount ir <;> rfl
  · exact decode_congr (by rw [hc]; rfl)

/-- Settles O32: an instruction with a register byte of 8 or more is ill formed. -/
theorem illegalRegisterFaults : Obligations.IllegalRegisterFaults := fun _ s h =>
  exec_illegal (wf_eq_false.mpr h) s

/-- An instruction that neither is ill formed nor divides by zero goes on, unless it is HLT. -/
theorem Ending.run_eq {i : Instr} {s t : State} (e : Ending s i t) (hwf : i.wf = true)
    (hz : ¬ ZeroDivisor i s) : t.run = if i = .hlt then .halted .hlt else s.run := by
  cases e with
  | goesOn hi hrun => rw [hrun, if_neg hi]
  | hlt => rfl
  | zeroDivisor a b hb => exact absurd ⟨a, b, .inr rfl, hb⟩ hz
  | divideByZero a b hb => exact absurd ⟨a, b, .inl rfl, hb⟩ hz
  | illegalRegister hi => rw [hi] at hwf; cases hwf

/-- Settles O8: the stall, the three ends of the checks, and an instruction that passes them. -/
theorem stepChecksInOrder : Obligations.StepChecksInOrder := by
  refine fun s hr => ⟨fun r hd => step_of_rejected hr hd,
    fun i hd hi => (step_of_decoded hr hd).trans (exec_illegal hi _),
    fun a b hd hb => (step_of_decoded hr hd).trans (exec_div_zero a b hb),
    fun a b hd hb => (step_of_decoded hr hd).trans (exec_mod_zero a b hb),
    fun i hd hwf hz => ?_⟩
  obtain ⟨t, ht⟩ := everyInstructionAnswers i s.fetch
  refine ⟨t, (step_of_decoded hr hd).trans ht, ?_⟩
  rw [(effect_of_exec ht).ending.run_eq hwf hz, State.fetch_run, hr]

/-- Settles O33: of the ways an instruction can end, two fault, and they record pc and the
latches. -/
theorem faultsHaveNoEffect : Obligations.FaultsHaveNoEffect := by
  intro s t r h hf
  obtain ⟨hr, ⟨_, -, rfl⟩ | ⟨i, -, e⟩⟩ := step_cases h
  · rw [State.fetch_run, hr] at hf; cases hf
  · cases e.ending with
    | goesOn _ hrun => rw [hrun, State.fetch_run, hr] at hf; cases hf
    | hlt | zeroDivisor _ _ _ => cases hf
    | divideByZero _ _ _ | illegalRegister _ => cases hf; exact ⟨rfl, rfl, rfl, rfl, rfl⟩

end Sys2Proof.Machine
end

section
/-! PROOFS. The memory transactions of an instruction and of a step, and the memory they leave
(spec/20_memory.md rules R37 and R41). -/

namespace Sys2Proof.Machine

/-! ### The transactions of an instruction -/

theorem dataTransactions_push (a : RegIdx) (s : State) :
    dataTransactions (.push a.toByte) s = [.write (s.sp - 1) (s.reg a)] := by
  simp [dataTransactions, pushTransaction]

theorem dataTransactions_call (a : RegIdx) (s : State) :
    dataTransactions (.call a.toByte) s = [.write (s.sp - 1) (s.pc + 2)] := by
  simp [dataTransactions, pushTransaction]

theorem dataTransactions_pop (a : RegIdx) (s : State) :
    dataTransactions (.pop a.toByte) s = [.read s.sp (s.memRead s.sp)] := by
  simp [dataTransactions, popTransaction, State.popValue]

theorem dataTransactions_ret (s : State) :
    dataTransactions .ret s = [.read s.sp (s.memRead s.sp)] := rfl

theorem dataTransactions_of_not_stack {i : Instr} (hret : i ≠ .ret)
    (hstack : ∀ r, i ≠ .push r ∧ i ≠ .call r ∧ i ≠ .pop r) (s : State) :
    dataTransactions i s = [] := by
  cases i with
  | ret => exact absurd rfl hret
  | push r => exact absurd rfl (hstack r).1
  | call r => exact absurd rfl (hstack r).2.1
  | pop r => exact absurd rfl (hstack r).2.2
  | _ => rfl

theorem dataTransactions_illegal {i : Instr} (hi : i.wf = false) (s : State) :
    dataTransactions i s = [] := by
  cases i with
  | ret => cases hi
  | push r | call r | pop r =>
    obtain ⟨b, hb, h8⟩ := wf_eq_false.mp hi
    obtain rfl : b = r := List.mem_singleton.mp hb
    simp [dataTransactions, regIndex_eq_none.mpr h8]
  | _ => rfl

/-- A transaction of an instruction is a write below SP or a read of the byte at SP. -/
theorem mem_dataTransactions {i : Instr} {s : State} {x : Transaction}
    (hx : x ∈ dataTransactions i s) :
    (∃ v, x = .write (s.sp - 1) v) ∨ x = .read s.sp (s.memRead s.sp) := by
  cases i with
  | ret => exact .inr (List.mem_singleton.mp hx)
  | pop r =>
    obtain ⟨a, -, rfl⟩ := Option.mem_map.mp (Option.mem_toList.mp hx)
    exact .inr rfl
  | push r | call r =>
    obtain ⟨a, -, rfl⟩ := Option.mem_map.mp (Option.mem_toList.mp hx)
    exact .inl ⟨_, rfl⟩
  | _ => cases hx

/-- The memory an effect leaves is what the instruction's transactions make of the memory before. -/
theorem Effect.mem_eq {i : Instr} {s t : State} (e : Effect s i t) :
    t.mem = (dataTransactions i s).foldl Transaction.apply s.mem := by
  cases e with
  | illegal hi => rw [dataTransactions_illegal hi]; rfl
  | push a => rw [dataTransactions_push]; rfl
  | call a => rw [dataTransactions_call]; rfl
  | pop a => rw [dataTransactions_pop]; rfl
  | jeq a | jne a => split <;> rfl
  | _ => rfl

/-- An effect leaves memory as it was, or it is a PUSH or a CALL that writes one byte below SP. -/
theorem Effect.mem_cases {i : Instr} {s t : State} (e : Effect s i t) :
    t.mem = s.mem ∨ ∃ a : RegIdx, (i = .push a.toByte ∨ i = .call a.toByte) ∧
      ∃ v, t.mem = s.mem.write (s.sp - 1) v := by
  cases e with
  | push a => exact .inr ⟨a, .inl rfl, _, rfl⟩
  | call a => exact .inr ⟨a, .inr rfl, _, rfl⟩
  | jeq a | jne a => exact .inl (by split <;> rfl)
  | _ => exact .inl rfl

/-- Settles O37: memory changes by the write of a PUSH or a CALL only, and that write changes its own
byte only. -/
theorem onlyPushAndCallStore : Obligations.OnlyPushAndCallStore := by
  intro i s t x h hx
  obtain hm | ⟨a, hi, v, hm⟩ := (effect_of_exec h).mem_cases
  · exact absurd (State.memRead_of_mem_eq hm x) hx
  · refine ⟨by_contra fun hne => hx ?_, a, hi⟩
    rw [State.memRead, hm, Memory.read_write, if_neg hne, State.memRead]

/-! ### The transactions of a step -/

/-- An instruction without transactions of its own makes those of its fetch only. -/
theorem stepTransactions_of_no_data {s : State} {i : Instr} (hr : s.run = .running)
    (hd : s.decodedAtPc = .ok i) (hi : dataTransactions i s.fetch = []) :
    stepTransactions s = fetchTransactions s := by
  rw [stepTransactions_of_decoded hr hd, hi, List.append_nil]

/-- Settles O46: the fetch's reads, then those of the instruction that bytes at pc decode to. -/
theorem transactionsOfAStep : Obligations.TransactionsOfAStep := by
  rintro s hr _ rfl
  refine ⟨fun a hd => ?_, fun a hd => ?_, fun a hd => ?_, fun hd => ?_,
    fun i hd hi => stepTransactions_of_no_data hr hd (dataTransactions_illegal hi _),
    fun i hd hret hstack =>
      stepTransactions_of_no_data hr hd (dataTransactions_of_not_stack hret hstack _),
    fun r hd => stepTransactions_of_rejected hr hd⟩ <;> rw [stepTransactions_of_decoded hr hd]
  · rw [dataTransactions_push]; rfl
  · rw [dataTransactions_call]; rfl
  · rw [dataTransactions_pop]; rfl
  · rfl

/-- The reads of the fetch carry the bytes memory holds. -/
theorem read_mem_fetchTransactions {s : State} {addr data : Byte}
    (h : .read addr data ∈ fetchTransactions s) : data = s.memRead addr := by
  simp only [fetchTransactions, List.mem_cons, Transaction.read.injEq, List.not_mem_nil,
    or_false] at h
  obtain ⟨rfl, rfl⟩ | ⟨rfl, rfl⟩ | ⟨rfl, rfl⟩ := h <;> rfl

/-- The fetch's transactions are reads, so they leave memory as it is. -/
theorem foldl_fetchTransactions (s : State) (m : Memory) :
    (fetchTransactions s).foldl Transaction.apply m = m := rfl

/-- Settles O47: the fetch leaves memory as it is, and an effect's memory is the fold of its own
transactions. -/
theorem stepMemoryIsItsTransactions : Obligations.StepMemoryIsItsTransactions := by
  intro s t h
  obtain ⟨hr, ⟨r, hd, rfl⟩ | ⟨i, hd, e⟩⟩ := step_cases h
  · rw [stepTransactions_of_rejected hr hd]
    exact ⟨rfl, fun _ _ => read_mem_fetchTransactions⟩
  · rw [stepTransactions_of_decoded hr hd]
    refine ⟨?_, fun addr data hx => ?_⟩
    · rw [List.foldl_append, foldl_fetchTransactions, e.mem_eq, State.fetch_mem]
    · obtain hx | hx := List.mem_append.mp hx
      · exact read_mem_fetchTransactions hx
      · obtain ⟨v, hv⟩ | hv := mem_dataTransactions hx <;> cases hv
        rfl

/-! ### Code that a PUSH writes -/

/-- The byte a push wrote stands below the old SP. -/
theorem State.memRead_push_self (s : State) (v : Byte) : (s.push v).memRead (s.sp - 1) = v := by
  rw [State.memRead_push, if_pos rfl]

/-- Settles O48: the next fetch reads the byte the PUSH wrote; the PUSH itself has the byte its own
fetch latched. -/
theorem pushedCodeIsFetched : Obligations.PushedCodeIsFetched := by
  intro s a hr hd
  have hs : step s = .next ((s.fetch.push (s.reg a)).advance 2) :=
    (step_of_decoded hr hd).trans (exec_push a _)
  have hmem := State.memRead_push_self s.fetch (s.reg a)
  refine ⟨fun hsp => ?_, fun hsp => ⟨_, hs, rfl, hsp ▸ hmem⟩⟩
  obtain ⟨u, hu⟩ := step_answers (s := (s.fetch.push (s.reg a)).advance 2) hr
  have hpc : ((s.fetch.push (s.reg a)).advance 2).pc = s.sp - 1 := hsp.symm
  refine ⟨_, u, hs, hu, ?_⟩
  rw [(step_latches hu).1, hpc]
  exact hmem

end Sys2Proof.Machine
end

section
/-! PROOFS. Memories in canonical form, and the image a load places (spec/20_memory.md section 1,
spec/70_reset_and_hazards.md rule R120). -/

namespace Sys2Proof.Machine

/-! ### Equal memories are equal lists -/

theorem Memory.lookup_cons (k : Nat) (v : Byte) (m : Memory) (x : Nat) :
    Memory.lookup ((k, v) :: m) x = if k = x then v else m.lookup x := rfl

/-- An address that is not listed reads as 0x00. -/
theorem Memory.lookup_eq_zero {m : Memory} {x : Nat} (h : ∀ c ∈ m, c.1 ≠ x) :
    m.lookup x = 0 := by
  induction m with
  | nil => rfl
  | cons c m ih =>
    rw [Memory.lookup_cons, if_neg (h c (by simp)), ih fun d hd => h d (by simp [hd])]

/-- Of two canonical memories that read alike, neither lists an address below the other's first: it
would read as 0x00 in the other. -/
theorem Memory.first_le {k l : Nat} {v w : Byte} {m n : Memory}
    (hn : ∀ c ∈ n, l < c.1) (hv : v ≠ 0)
    (h : ∀ x, Memory.lookup ((k, v) :: m) x = Memory.lookup ((l, w) :: n) x) : l ≤ k := by
  by_contra hlt
  have h0 : Memory.lookup ((l, w) :: n) k = 0 := Memory.lookup_of_lt fun c hc => by
    obtain rfl | hc := List.mem_cons.mp hc
    · omega
    · have := hn c hc; omega
  rw [← h k, Memory.lookup_cons, if_pos rfl] at h0
  exact hv h0

/-- Memories with rising addresses and no 0x00 listed are equal where they read alike. -/
theorem Memory.eq_of_lookup_eq {m n : Memory}
    (hm : m.Pairwise (fun c d => c.1 < d.1)) (hm0 : ∀ c ∈ m, c.2 ≠ 0)
    (hn : n.Pairwise (fun c d => c.1 < d.1)) (hn0 : ∀ c ∈ n, c.2 ≠ 0)
    (h : ∀ x, m.lookup x = n.lookup x) : m = n := by
  induction m generalizing n with
  | nil =>
    cases n with
    | nil => rfl
    | cons d n =>
      have hd := h d.1
      rw [Memory.lookup_cons, if_pos rfl] at hd
      exact absurd hd.symm (hn0 d (by simp))
  | cons c m ih =>
    cases n with
    | nil =>
      have hc := h c.1
      rw [Memory.lookup_cons, if_pos rfl] at hc
      exact absurd hc (hm0 c (by simp))
    | cons d n =>
      obtain ⟨k, v⟩ := c
      obtain ⟨l, w⟩ := d
      obtain ⟨hmk, hm'⟩ := List.pairwise_cons.mp hm
      obtain ⟨hnl, hn'⟩ := List.pairwise_cons.mp hn
      obtain ⟨hv, hm0'⟩ := List.forall_mem_cons.mp hm0
      obtain ⟨hw, hn0'⟩ := List.forall_mem_cons.mp hn0
      obtain rfl : k = l := le_antisymm (Memory.first_le hmk hw fun x => (h x).symm)
        (Memory.first_le hnl hv h)
      obtain rfl : v = w := by simpa [Memory.lookup_cons] using h k
      have htail (x : Nat) : Memory.lookup m x = Memory.lookup n x := by
        by_cases hx : k = x
        · subst hx
          rw [Memory.lookup_of_lt hmk, Memory.lookup_of_lt hnl]
        · simpa [Memory.lookup_cons, hx] using h x
      rw [ih hm' hm0' hn' hn0' htail]

/-- Memories in canonical form that read alike are equal: no byte past the 256 is listed. -/
theorem Memory.eq_of_read_eq {m n : Memory} (hm : m.Wf) (hn : n.Wf)
    (h : ∀ x, m.read x = n.read x) : m = n := by
  obtain ⟨hmp, hmc⟩ := hm
  obtain ⟨hnp, hnc⟩ := hn
  refine Memory.eq_of_lookup_eq hmp (fun c hc => (hmc c hc).2) hnp (fun c hc => (hnc c hc).2)
    fun x => ?_
  by_cases hx : x < 256
  · have hr := h (BitVec.ofNat 8 x)
    simpa only [Memory.read, BitVec.toNat_ofNat, Nat.mod_eq_of_lt hx] using hr
  · rw [Memory.lookup_eq_zero fun c hc => ((hmc c hc).1.trans_le (not_lt.mp hx)).ne,
      Memory.lookup_eq_zero fun c hc => ((hnc c hc).1.trans_le (not_lt.mp hx)).ne]

/-- Settles O43: canonical memories are compared by their readings. -/
theorem canonicalMemoriesAreEqual : Obligations.CanonicalMemoriesAreEqual := by
  refine ⟨fun m n => Memory.eq_of_read_eq, fun m addr v hm => ⟨?_, ?_⟩⟩
  · refine Memory.eq_of_read_eq (Memory.write_wf hm _ _) hm fun x => ?_
    rw [Memory.read_write]
    split
    case isTrue hx => rw [hx]
    case isFalse => rfl
  · refine Memory.eq_of_read_eq (Memory.write_wf (Memory.write_wf hm _ _) _ _) hm fun x => ?_
    rw [Memory.read_write, Memory.read_write]
    split
    case isTrue hx => rw [hx]
    case isFalse => rfl

/-! ### Loading an image -/

/-- Reading after a run of at most 256 bytes was written from an address on: the run's byte at that
distance, and past the run the byte that was there. -/
theorem Memory.read_writeBytes (m : Memory) (a x : Byte) {bs : List Byte} (h : bs.length ≤ 256) :
    (m.writeBytes a bs).read x = bs.getD (x - a).toNat (m.read x) := by
  induction bs generalizing m a with
  | nil => rfl
  | cons v bs ih =>
    rw [List.length_cons] at h
    rw [Memory.writeBytes, ih _ _ (by omega), Memory.read_write]
    by_cases hx : x = a
    · subst hx
      have hlast : (x - (x + 1)).toNat = 255 := by bv_omega
      rw [if_pos rfl, hlast, BitVec.sub_self, List.getD_eq_default _ _ (by omega)]
      rfl
    · have hnext : (x - a).toNat = (x - (a + 1)).toNat + 1 := by bv_omega
      rw [if_neg hx, hnext, List.getD_cons_succ]

theorem State.load_eq {image : List Byte} (h : image.length ≤ 256) :
    State.load image = .next { State.reset with mem := Memory.writeBytes [] 0 image } := if_pos h

theorem State.load_eq_refused {image : List Byte} (h : 256 < image.length) :
    State.load image = .refused (.imageTooLarge image.length) := if_neg (not_le.mpr h)

/-- A load that answers a start state answers reset with the image in memory. -/
theorem State.eq_of_load_eq_next {image : List Byte} {s : State} (h : State.load image = .next s) :
    s = { State.reset with mem := Memory.writeBytes [] 0 image } := by
  by_cases hl : image.length ≤ 256
  · rw [State.load_eq hl] at h
    cases h
    rfl
  · rw [State.load_eq_refused (not_le.mp hl)] at h
    cases h

/-- Settles O50: the image read back from address 0 on, and the refusal of a longer one. -/
theorem loadPlacesImage : Obligations.LoadPlacesImage := by
  refine ⟨fun image h => ⟨_, State.load_eq h, fun x => ?_, rfl, rfl, rfl, rfl, rfl⟩,
    fun image => State.load_eq_refused⟩
  have hread := Memory.read_writeBytes [] 0 x h
  have hx : x - 0 = x := BitVec.sub_zero x
  rwa [hx] at hread

/-- Settles O49: the reset state's own fields; its memory lists no byte. -/
theorem resetLeaves : Obligations.ResetLeaves :=
  ⟨by decide, rfl, rfl, fun _ => rfl, rfl, rfl⟩

end Sys2Proof.Machine
end

section
/-! PROOFS. The invariant holds at the start and every step keeps it (spec/10_state.md section 2,
spec/20_memory.md section 1, spec/60_exceptions.md section 1). -/

namespace Sys2Proof.Machine

/-! ### Memory and FL -/

/-- An effect keeps the canonical form of memory. -/
theorem Effect.mem_wf {i : Instr} {s t : State} (e : Effect s i t) (h : s.mem.Wf) : t.mem.Wf := by
  obtain hm | ⟨a, -, v, hm⟩ := e.mem_cases
  · rwa [hm]
  · rw [hm]
    exact Memory.write_wf h _ _

theorem flLegal_cmpFlags (va vb : Byte) : FlLegal (cmpFlags va vb) := by
  obtain ⟨-, h⟩ | ⟨-, h⟩ | ⟨-, h⟩ := cmpFlags_cases va vb <;> rw [h] <;> decide

/-- The effect of a CMP, and only that, changes FL, to one of CMP's three values. -/
theorem Effect.fl_cases {i : Instr} {s t : State} (e : Effect s i t) :
    t.fl = s.fl ∨ ∃ a b : RegIdx, i = .cmp a.toByte b.toByte ∧
      t.fl = cmpFlags (s.reg a) (s.reg b) := by
  by_cases hi : ∀ rA rB, i ≠ .cmp rA rB
  · exact .inl (e.fl_eq hi)
  · cases e with
    | cmp a b => exact .inr ⟨a, b, rfl, rfl⟩
    | illegal _ => exact .inl rfl
    | _ => exact absurd nofun hi

/-- An effect keeps FL legal. -/
theorem Effect.flLegal {i : Instr} {s t : State} (e : Effect s i t) (h : FlLegal s.fl) :
    FlLegal t.fl := by
  obtain hf | ⟨a, b, -, hf⟩ := e.fl_cases
  · rwa [hf]
  · rw [hf]
    exact flLegal_cmpFlags _ _

/-! ### The end of a run -/

theorem State.endAgrees_of_running {s : State} (h : s.run = .running) : s.EndAgrees := by
  rw [State.EndAgrees, h]
  trivial

/-- However the instruction at pc ends, the run state agrees with it. -/
theorem Ending.endAgrees {s t : State} {i : Instr} (hr : s.run = .running)
    (hd : s.decodedAtPc = .ok i) (e : Ending s.fetch i t) : t.EndAgrees := by
  cases e with
  | goesOn _ hrun => exact State.endAgrees_of_running (hrun.trans hr)
  | hlt => exact hd
  | zeroDivisor a b hb => exact ⟨⟨a, b, hd, hb⟩, List.getLast?_concat⟩
  | divideByZero a b hb => exact ⟨rfl, rfl, rfl, rfl, a, b, hd, hb⟩
  | illegalRegister hi => exact ⟨rfl, rfl, rfl, rfl, i, hd, hi⟩

/-! ### The invariant -/

/-- The fetch changes nothing the invariant speaks of while the core is RUNNING. -/
theorem State.Inv.fetch {s : State} (h : s.Inv) (hr : s.run = .running) : s.fetch.Inv :=
  ⟨h.memWf, h.flLegal, State.endAgrees_of_running hr⟩

/-- Settles O52: a stall keeps everything the invariant speaks of; an effect keeps memory canonical
and FL legal, and each way to end agrees with its record. -/
theorem stepKeepsInvariant : Obligations.StepKeepsInvariant := by
  intro s t hs h
  obtain ⟨hr, ⟨r, -, rfl⟩ | ⟨i, hd, e⟩⟩ := step_cases h
  · exact hs.fetch hr
  · exact ⟨e.mem_wf hs.memWf, e.flLegal hs.flLegal, e.ending.endAgrees hr hd⟩

/-- Settles O51: nothing is listed, FL is 0x00 and the core is RUNNING. -/
theorem resetMeetsInvariant : Obligations.ResetMeetsInvariant :=
  ⟨State.reset_wf, .inl rfl, State.endAgrees_of_running rfl⟩

/-- A loaded image meets the invariant. -/
theorem State.inv_of_load {image : List Byte} {s : State} (h : State.load image = .next s) :
    s.Inv := by
  obtain rfl := State.eq_of_load_eq_next h
  exact ⟨Memory.writeBytes_wf Memory.wf_nil 0 image, .inl rfl, State.endAgrees_of_running rfl⟩

/-- Settles O53: a run starts from a loaded image, and every step keeps the invariant. -/
theorem reachableStatesMeetInvariant : Obligations.ReachableStatesMeetInvariant := by
  intro s h
  induction h with
  | load hl => exact State.inv_of_load hl
  | step _ hs ih => exact stepKeepsInvariant _ _ ih hs

/-! ### The layout of FL -/

/-- The bits of the flag byte CMP writes. -/
theorem cmpFlags_bits (va vb : Byte) :
    (cmpFlags va vb).getLsbD 0 = decide (va.toNat = vb.toNat) ∧
      (cmpFlags va vb).getLsbD 1 = decide (va.toNat > vb.toNat) ∧
      (cmpFlags va vb).getLsbD 2 = decide (va.toNat < vb.toNat) := by
  obtain ⟨h, hf⟩ | ⟨h, hf⟩ | ⟨h, hf⟩ := cmpFlags_cases va vb <;> rw [hf]
  · simp [h, flagE]
  · have : vb.toNat < va.toNat := h
    simp [flagG, this, this.ne', this.le]
  · have : va.toNat < vb.toNat := h
    simp [flagL, this, this.ne, this.le]

/-- A legal FL is below 8, so bits 7..3 are 0. -/
theorem FlLegal.getLsbD_eq_false {v : Byte} (h : FlLegal v) {k : Nat} (hk : 3 ≤ k) :
    v.getLsbD k = false := by
  have hv : v.toNat < 2 ^ 3 := by obtain rfl | rfl | rfl | rfl := h <;> decide
  exact Nat.testBit_lt_two_pow (hv.trans_le (Nat.pow_le_pow_right (by decide) hk))

/-- Settles O54: the bits CMP writes, that only CMP writes FL, and that reachable states have a legal
FL. -/
theorem flLayoutHolds : Obligations.FlLayoutHolds := by
  refine ⟨rfl, fun s t a b h => ?_, fun i s t h hf => ?_, fun s hs k hk =>
    (reachableStatesMeetInvariant s hs).flLegal.getLsbD_eq_false hk⟩
  · rw [exec_cmp] at h
    cases h
    obtain ⟨hE, hG, hL⟩ := cmpFlags_bits (s.reg a) (s.reg b)
    exact ⟨hE, hG, hL, fun k hk => (flLegal_cmpFlags _ _).getLsbD_eq_false hk⟩
  · obtain hfl | ⟨a, b, hi, -⟩ := (effect_of_exec h).fl_cases
    · exact absurd hfl hf
    · exact ⟨_, _, hi⟩

end Sys2Proof.Machine
end

section
/-! PROOFS. The instructions one by one: encoding, fault on an illegal register, effect and frame
(spec/41_data_io.md to spec/44_control.md). -/

namespace Sys2Proof.Machine

/-! ### Forms -/

/-- The form of a one-register instruction, from its encoding and its register operand. -/
theorem oneRegisterForm {mk : Byte → Instr} {opcode : Byte}
    (henc : ∀ rA, encode (mk rA) = [opcode, rA]) (hreg : ∀ rA, (mk rA).regOperands = [rA]) :
    OneRegisterForm mk opcode := by
  refine ⟨fun rA => henc rA ▸ hasEncoding_encode (mk rA), fun s rA h => ?_⟩
  exact illegalRegisterFaults _ s ⟨rA, by simp [hreg], h⟩

/-- The form of a two-register instruction, from its encoding and its register operands. -/
theorem twoRegisterForm {mk : Byte → Byte → Instr} {opcode : Byte}
    (henc : ∀ rA rB, encode (mk rA rB) = [opcode, rA, rB])
    (hreg : ∀ rA rB, (mk rA rB).regOperands = [rA, rB]) : TwoRegisterForm mk opcode := by
  refine ⟨fun rA rB => henc rA rB ▸ hasEncoding_encode (mk rA rB), fun s rA rB h => ?_⟩
  refine illegalRegisterFaults _ s ?_
  obtain h | h := h
  · exact ⟨rA, by simp [hreg], h⟩
  · exact ⟨rB, by simp [hreg], h⟩

/-! ### Frames -/

theorem SameExceptRegs.refl (s : State) : SameExceptRegs [] s s :=
  ⟨fun _ _ => rfl, rfl, rfl, rfl, rfl, rfl, rfl⟩

/-- A write to pc is outside the frame. -/
theorem SameExceptRegs.setPc {rs : List RegIdx} {s t : State} (h : SameExceptRegs rs s t)
    (v : Byte) : SameExceptRegs rs s (t.setPc v) :=
  ⟨h.regs, h.fl, h.run, h.ir, h.opA, h.opB, h.out⟩

theorem SameExceptRegs.advance {rs : List RegIdx} {s t : State} (h : SameExceptRegs rs s t)
    (v : Byte) : SameExceptRegs rs s (t.advance v) := h.setPc _

/-- A write to a register adds it to those that may have changed. -/
theorem SameExceptRegs.setReg {rs : List RegIdx} {s t : State} (h : SameExceptRegs rs s t)
    (r : RegIdx) (v : Byte) : SameExceptRegs (r :: rs) s (t.setReg r v) := by
  refine ⟨fun q hq => ?_, h.fl, h.run, h.ir, h.opA, h.opB, h.out⟩
  rw [List.mem_cons, not_or] at hq
  obtain ⟨hqr, hqs⟩ := hq
  rw [State.reg_setReg, if_neg hqr, h.regs q hqs]

/-! ### pc -/

theorem add_two_toNat (x : Byte) : (x + 2).toNat = (x.toNat + 2) % 256 := BitVec.toNat_add x 2

theorem add_three_toNat (x : Byte) : (x + 3).toNat = (x.toNat + 3) % 256 := BitVec.toNat_add x 3

/-! ### LDI and PRN -/

/-- Settles O15: LDI's encoding and fault, and its one register write. -/
theorem ldiLoadsImmediate : Obligations.LdiLoadsImmediate := by
  refine ⟨fun rA imm => hasEncoding_encode (.ldi rA imm), fun s rA imm h => ?_,
    fun s a imm => ⟨_, exec_ldi a imm s, ?_, add_three_toNat s.pc,
      (State.setReg_frame s a imm).advance 3, fun _ => rfl⟩⟩
  · exact illegalRegisterFaults _ s ⟨rA, List.mem_singleton_self rA, h⟩
  · simp

/-- Settles O16: PRN's form, and its one event. -/
theorem prnEmitsRegister : Obligations.PrnEmitsRegister :=
  ⟨oneRegisterForm (fun _ => rfl) (fun _ => rfl), fun s a => ⟨_, exec_prn a s, rfl,
    add_two_toNat s.pc, (SameExceptRegs.refl (s.emit (.num (s.reg a)))).advance 2, fun _ => rfl⟩⟩

/-! ### The two-register ALU operations -/

/-- An instruction whose answer is an ALU result writes that result. -/
theorem writesRegister_of_aluResult {i : Instr} {s : State} {f : Byte → Byte → Byte}
    {a b : RegIdx} {value : Nat} (hi : exec i s = .next (s.aluResult f a b))
    (hv : (f (s.reg a) (s.reg b)).toNat = value) : WritesRegister i s a value 3 := by
  obtain ⟨hregs, hmem⟩ := State.aluResult_frame s f a b
  exact ⟨_, hi, by simp [hv], add_three_toNat s.pc, hregs, hmem⟩

/-- The rule of an ALU operation, from its form, its meaning, and its pure function on numbers. -/
theorem aluRule {mk : Byte → Byte → Instr} {opcode : Byte} {f : Byte → Byte → Byte}
    {g : Nat → Nat → Nat} (hform : TwoRegisterForm mk opcode)
    (hexec : ∀ (a b : RegIdx) s, exec (mk a.toByte b.toByte) s = .next (s.aluResult f a b))
    (hf : ∀ va vb, (f va vb).toNat = g va.toNat vb.toNat) : AluRule mk opcode g :=
  ⟨hform, fun s a b => writesRegister_of_aluResult (hexec a b s) (hf _ _)⟩

theorem aluSub_toNat (va vb : Byte) :
    (aluSub va vb).toNat = (va.toNat + 256 - vb.toNat) % 256 := by
  unfold aluSub
  bv_omega

/-- Settles O17: addition, subtraction and multiplication of bytes are those of numbers modulo
256. -/
theorem addSubMulWrap : Obligations.AddSubMulWrap :=
  ⟨aluRule (twoRegisterForm (fun _ _ => rfl) (fun _ _ => rfl)) exec_add BitVec.toNat_add,
    aluRule (twoRegisterForm (fun _ _ => rfl) (fun _ _ => rfl)) exec_sub aluSub_toNat,
    aluRule (twoRegisterForm (fun _ _ => rfl) (fun _ _ => rfl)) exec_mul BitVec.toNat_mul⟩

/-- Settles O18: division of bytes is the floor quotient of numbers; the policy of this hardware
faults on a zero divisor. -/
theorem divGivesFloorOrFaults : Obligations.DivGivesFloorOrFaults :=
  ⟨twoRegisterForm (fun _ _ => rfl) (fun _ _ => rfl),
    fun _ a b h => writesRegister_of_aluResult (exec_div a b h) BitVec.toNat_udiv,
    fun _ a b h => exec_div_zero a b h⟩

/-- Settles O19: the remainder of bytes is that of numbers; a zero divisor halts. -/
theorem modGivesRemainderOrHalts : Obligations.ModGivesRemainderOrHalts :=
  ⟨twoRegisterForm (fun _ _ => rfl) (fun _ _ => rfl),
    fun _ a b h => writesRegister_of_aluResult (exec_mod a b h) BitVec.toNat_umod,
    fun _ a b h => exec_mod_zero a b h⟩

/-- Settles O20: what the two policies answer; `mod_like` answers as MOD does. -/
theorem divZeroPolicyValues : Obligations.DivZeroPolicyValues :=
  ⟨rfl, fun _ => ⟨rfl, fun a b h => exec_mod_zero a b h⟩⟩

/-- Settles O22: the bitwise operations on bytes are those on their numbers. -/
theorem andOrXorAreBitwise : Obligations.AndOrXorAreBitwise :=
  ⟨aluRule (twoRegisterForm (fun _ _ => rfl) (fun _ _ => rfl)) exec_and BitVec.toNat_and,
    aluRule (twoRegisterForm (fun _ _ => rfl) (fun _ _ => rfl)) exec_or BitVec.toNat_or,
    aluRule (twoRegisterForm (fun _ _ => rfl) (fun _ _ => rfl)) exec_xor BitVec.toNat_xor⟩

/-! ### Shifts -/

theorem aluShl_toNat (va vb : Byte) :
    (aluShl va vb).toNat = (va.toNat * 2 ^ vb.toNat) % 256 := by
  rw [aluShl, BitVec.toNat_shiftLeft, Nat.shiftLeft_eq]

theorem aluShr_toNat (va vb : Byte) : (aluShr va vb).toNat = va.toNat / 2 ^ vb.toNat := by
  rw [aluShr, BitVec.toNat_ushiftRight, Nat.shiftRight_eq_div_pow]

/-- A shift left by 8 or more leaves no bit of the byte (decision D10). -/
theorem aluShl_eq_zero {va vb : Byte} (h : 8 ≤ vb.toNat) : aluShl va vb = 0 :=
  BitVec.shiftLeft_eq_zero h

/-- A shift right by 8 or more leaves no bit of the byte (decision D10). -/
theorem aluShr_eq_zero {va vb : Byte} (h : 8 ≤ vb.toNat) : aluShr va vb = 0 :=
  BitVec.ushiftRight_eq_zero h

/-- Settles O24: a shift is a product or a quotient by a power of two, and 0 from 8 on. -/
theorem shiftsByWholeByte : Obligations.ShiftsByWholeByte :=
  ⟨aluRule (twoRegisterForm (fun _ _ => rfl) (fun _ _ => rfl)) exec_shl aluShl_toNat,
    aluRule (twoRegisterForm (fun _ _ => rfl) (fun _ _ => rfl)) exec_shr aluShr_toNat,
    fun s a b h =>
      ⟨writesRegister_of_aluResult (exec_shl a b s) (congrArg BitVec.toNat (aluShl_eq_zero h)),
        writesRegister_of_aluResult (exec_shr a b s) (congrArg BitVec.toNat (aluShr_eq_zero h))⟩⟩

/-! ### NOT and CMP -/

theorem aluNot_toNat (va : Byte) : (aluNot va).toNat = 255 - va.toNat := BitVec.toNat_not

/-- Settles O23: the complement of a byte is its distance to 255. -/
theorem notComplements : Obligations.NotComplements := by
  refine ⟨oneRegisterForm (fun _ => rfl) (fun _ => rfl), fun s a => ⟨_, exec_not a s, ?_,
    add_two_toNat s.pc, (State.setReg_frame s a _).advance 2, fun _ => rfl⟩⟩
  simp [aluNot_toNat]

/-- The flag byte CMP writes, as the statements write it. -/
theorem cmpFlags_eq_ite (va vb : Byte) :
    cmpFlags va vb = if va.toNat = vb.toNat then 0x01
      else if va.toNat > vb.toNat then 0x02 else 0x04 := by
  simp only [cmpFlags, BitVec.toNat_inj, gt_iff_lt, ← BitVec.lt_def]
  rfl

/-- Settles O21: CMP's form, and its write of FL. -/
theorem cmpSetsOneFlag : Obligations.CmpSetsOneFlag :=
  ⟨twoRegisterForm (fun _ _ => rfl) (fun _ _ => rfl), fun s a b => ⟨_, exec_cmp a b s,
    cmpFlags_eq_ite _ _, add_three_toNat s.pc,
    (SameExceptRegs.refl (s.setFl (cmpFlags (s.reg a) (s.reg b)))).advance 3, fun _ => rfl⟩⟩

/-! ### The stack -/

/-- A push changes no byte but the one below the old SP. -/
theorem State.memSameExcept_push_sp (s : State) (v : Byte) :
    MemSameExcept (s.sp - 1) s (s.push v) := State.sp_push s v ▸ State.memSameExcept_push s v

/-- The frame of a POP: the register it loads, and SP. -/
theorem State.pop_frame (s : State) (a : RegIdx) (v : Byte) :
    SameExceptRegs [a, 7] s (s.popState.setReg a v) := s.popState_frame.setReg a v

/-- Settles O25: PUSH's form, and the stack primitive it runs on its register's old value. -/
theorem pushStoresBelowSp : Obligations.PushStoresBelowSp :=
  ⟨oneRegisterForm (fun _ => rfl) (fun _ => rfl), fun s a => ⟨_, exec_push a s,
    State.sp_push s (s.reg a), State.memRead_push_self s (s.reg a), add_two_toNat s.pc,
    (s.push_frame (s.reg a)).advance 2, s.memSameExcept_push_sp (s.reg a)⟩⟩

/-- A write to another register leaves SP. -/
theorem State.sp_setReg_of_ne (s : State) {a : RegIdx} (ha : a ≠ 7) (v : Byte) :
    (s.setReg a v).sp = s.sp := by
  rw [State.sp_eq_reg, State.reg_setReg, if_neg ha.symm, State.sp_eq_reg]

/-- Settles O26: POP's form, its load, and SP's increment where it is not overwritten. -/
theorem popLoadsFromSp : Obligations.PopLoadsFromSp := by
  refine ⟨oneRegisterForm (fun _ => rfl) (fun _ => rfl), fun s a => ⟨_, exec_pop a s, ?_,
    fun ha => (State.sp_setReg_of_ne _ ha _).trans s.sp_popState, add_two_toNat s.pc,
    (s.pop_frame a _).advance 2, fun _ => rfl⟩⟩
  simp [State.popValue]

/-! ### Control -/

/-- Settles O27: CALL's form, the push of the return address, and the target read after it. -/
theorem callPushesReturnAddress : Obligations.CallPushesReturnAddress := by
  refine ⟨oneRegisterForm (fun _ => rfl) (fun _ => rfl), fun s a => ⟨_, exec_call a s,
    State.sp_push s (s.pc + 2), ?_, State.reg_push s (s.pc + 2) a, (s.push_frame (s.pc + 2)).setPc _,
    s.memSameExcept_push_sp (s.pc + 2)⟩⟩
  rw [State.memRead_setPc, State.memRead_push_self, add_two_toNat]

/-- Settles O28: RET's encoding, and the pop that sets pc. -/
theorem retPopsPc : Obligations.RetPopsPc :=
  ⟨hasEncoding_encode .ret, fun s => ⟨_, exec_ret s, rfl, State.sp_popState s,
    s.popState_frame.setPc _, s.memSame_popState⟩⟩

/-- An instruction whose answer is a write to pc changes nothing else. -/
theorem onlySetsPc_of_setPc {i : Instr} {s : State} {v : Byte} (h : exec i s = .next (s.setPc v)) :
    OnlySetsPc i s v := ⟨_, h, rfl, (SameExceptRegs.refl s).setPc v, fun _ => rfl⟩

/-- Settles O29: JMP's form, and its write of pc. -/
theorem jmpSetsPc : Obligations.JmpSetsPc :=
  ⟨oneRegisterForm (fun _ => rfl) (fun _ => rfl), fun s a => onlySetsPc_of_setPc (exec_jmp a s)⟩

/-- Settles O30: the forms of JEQ and JNE, and their writes of pc on either value of bit 0. -/
theorem jeqJneBranchOnFlagE : Obligations.JeqJneBranchOnFlagE := by
  refine ⟨oneRegisterForm (fun _ => rfl) (fun _ => rfl),
    oneRegisterForm (fun _ => rfl) (fun _ => rfl),
    fun s a => ⟨onlySetsPc_of_setPc ?_, onlySetsPc_of_setPc ?_⟩⟩
  · rw [exec_jeq, apply_ite s.setPc]; rfl
  · rw [exec_jne, apply_ite s.setPc]; rfl

/-- Settles O31: HLT's encoding, and its halt. -/
theorem hltHalts : Obligations.HltHalts := ⟨hasEncoding_encode .hlt, exec_hlt⟩

end Sys2Proof.Machine
end

section
/-! PROOFS. The stack in pairs of instructions and at the ends of memory (spec/43_stack.md,
spec/44_control.md section 3). -/

namespace Sys2Proof.Machine

/-- A pop after a push finds the byte pushed. -/
@[simp] theorem State.popValue_push (s : State) (v : Byte) : (s.push v).popValue = v := by
  rw [State.popValue, State.sp_push, State.memRead_push_self]

/-- A pop after a push leaves every register as it was before both. -/
@[simp] theorem State.reg_popState_push (s : State) (v : Byte) (r : RegIdx) :
    (s.push v).popState.reg r = s.reg r := by
  rw [State.reg_popState, State.sp_push, State.reg_push, BitVec.sub_add_cancel]
  split
  case isTrue h => rw [h, State.sp_eq_reg]
  case isFalse => rfl

/-- Settles O40: the pop undoes the push's SP and finds its byte. -/
theorem pushThenPopRestores : Obligations.PushThenPopRestores := by
  refine fun s a b => ⟨_, _, exec_push a s, exec_pop b _, ?_, fun r hr => ?_, ?_⟩
  · rw [State.reg_advance, State.reg_setReg, if_pos rfl]
    exact State.popValue_push s (s.reg a)
  · rw [State.reg_advance, State.reg_setReg, if_neg hr]
    exact State.reg_popState_push s (s.reg a) r
  · have hpc : s.pc + 2 + 2 = s.pc + 4 := BitVec.add_assoc s.pc 2 2
    exact (congrArg BitVec.toNat hpc).trans (BitVec.toNat_add s.pc 4)

/-- Settles O41: CALL's push and its frame, and what a RET does where it finds SP and the pushed
byte, be it at once or later. -/
theorem callThenRetReturns : Obligations.CallThenRetReturns := by
  intro s a
  have hsp := State.sp_push s (s.pc + 2)
  have hbyte : (s.push (s.pc + 2)).memRead (s.push (s.pc + 2)).sp = s.pc + 2 :=
    State.popValue_push s (s.pc + 2)
  refine ⟨_, exec_call a s, (s.push_frame (s.pc + 2)).setPc _,
    s.memSameExcept_push_sp (s.pc + 2), fun u husp hubyte =>
      ⟨_, exec_ret u, ?_, ?_, u.popState_frame.setPc _, u.memSame_popState⟩,
    _, exec_ret _, State.reg_popState_push s (s.pc + 2), rfl⟩
  · have hpop : u.popValue = s.pc + 2 := hubyte.trans hbyte
    rw [State.setPc_pc, hpop, add_two_toNat]
  · calc u.popState.sp = u.sp + 1 := u.sp_popState
      _ = s.sp - 1 + 1 := congrArg (· + 1) (husp.trans hsp)
      _ = s.sp := BitVec.sub_add_cancel s.sp 1

/-- Settles O45: the wraps of SP at 0x00 and 0xFF, and a PUSH with SP one above the address. -/
theorem stackWrapsUnchecked : Obligations.StackWrapsUnchecked := by
  refine ⟨fun s a hsp => ?_, fun s a hsp ha => ?_, fun s a x hsp => ?_⟩
  · have hbelow : s.sp - 1 = 0xFF := by rw [hsp]; rfl
    refine ⟨_, exec_push a s, (State.sp_push s (s.reg a)).trans hbelow, ?_, rfl⟩
    exact hbelow ▸ State.memRead_push_self s (s.reg a)
  · have habove : s.sp + 1 = 0x00 := by rw [hsp]; rfl
    refine ⟨_, exec_pop a s, ?_, by simp [State.popValue, hsp], rfl⟩
    exact ((State.sp_setReg_of_ne _ ha _).trans s.sp_popState).trans habove
  · have hbelow : s.sp - 1 = x := by rw [hsp]; exact BitVec.add_sub_cancel x 1
    exact ⟨_, exec_push a s, hbelow ▸ State.memRead_push_self s (s.reg a)⟩

end Sys2Proof.Machine
end

section
/-! PROOFS. What every instruction leaves: registers, pc and the output log (spec/10_state.md rules
R13 and R24, spec/44_control.md section 1, spec/60_exceptions.md section 4). -/

namespace Sys2Proof.Machine

/-! ### Registers -/

theorem RegIdx.toByte_injective : Function.Injective RegIdx.toByte := fun q r h => by
  rw [← Option.some_inj, ← regIndex_toByte q, h, regIndex_toByte]

/-- A register an effect changes is one the access table lets the instruction write. -/
theorem Effect.reg_eq {i : Instr} {s t : State} (e : Effect s i t) {r : RegIdx}
    (hr : r.toByte ∉ writtenRegs i) : t.reg r = s.reg r := by
  have h7 : (7 : Byte) = RegIdx.toByte 7 := rfl
  cases e with
  | ret | push a | call a | pop a | not a | ldi a imm | add a b | sub a b | mul a b | div a b h
  | mod a b h | and a b | or a b | xor a b | shl a b | shr a b =>
    simp_all [writtenRegs, RegIdx.toByte_injective.eq_iff]
  | jeq a | jne a => split <;> rfl
  | _ => rfl

/-- Settles O38: outside the written registers an effect leaves a register as it was. -/
theorem onlyNamedRegistersChange : Obligations.OnlyNamedRegistersChange := fun _ _ _ _ h hr =>
  by_contra fun hw => hr ((effect_of_exec h).reg_eq hw)

/-! ### pc -/

/-- The register a legal operand byte names. -/
@[simp] theorem regOfByte_toByte (a : RegIdx) : regOfByte a.toByte = a :=
  Fin.ext (by simp [regOfByte, RegIdx_toByte_toNat, Nat.mod_eq_of_lt a.isLt])

/-- The fetch does not move the target. -/
theorem targetOf_fetch (i : Instr) (s : State) : targetOf i s.fetch = targetOf i s := by
  cases i <;> rfl

/-- An instruction that ends the run leaves pc. -/
theorem Ending.pc_eq {i : Instr} {s t : State} (e : Ending s i t) (h : t.run ≠ s.run) :
    t.pc = s.pc := by
  cases e with
  | goesOn _ hrun => exact absurd hrun h
  | _ => rfl

/-- An instruction that leaves the core RUNNING takes pc to its target, and past itself where it has
none. -/
theorem Effect.pc_eq {i : Instr} {s t : State} (e : Effect s i t) (ht : t.run = .running) :
    t.pc = (targetOf i s).getD (s.pc + BitVec.ofNat 8 i.length) := by
  cases e with
  | illegal _ | hlt | divZero _ _ _ | modZero _ _ _ => cases ht
  | call a | jmp a => simp [targetOf]
  | jeq a | jne a =>
    have hbit : s.fl.getLsbD 0 = s.flE := rfl
    cases hE : s.flE <;> rw [targetOf, regOfByte_toByte, hbit, hE] <;> rfl
  | _ => rfl

/-- Settles O36: the ends and the stall leave pc; every other step goes to the target or past the
instruction. -/
theorem nextPcOfEveryStep : Obligations.NextPcOfEveryStep := by
  intro s t hr h
  obtain ⟨-, ⟨r, hd, rfl⟩ | ⟨i, hd, e⟩⟩ := step_cases h
  · exact ⟨fun _ => rfl, fun _ _ => rfl, fun i hi => by rw [hd] at hi; cases hi⟩
  · refine ⟨fun ht => e.ending.pc_eq fun hrun => ht (hrun.trans hr),
      fun r hr => (by rw [hd] at hr; cases hr), fun j hj ht => ?_⟩
    rw [hd] at hj
    cases hj
    have hpc := e.pc_eq ht
    rw [targetOf_fetch] at hpc
    refine ⟨fun v hv => by rw [hpc, hv]; rfl, fun hv => ?_⟩
    rw [hpc, hv]
    simp [BitVec.toNat_add]

/-! ### Runs that never end -/

/-- A state that steps to itself is where a run that reaches it stays. -/
theorem runsTo_of_fixed {s t : State} (hs : step s = .next t) (ht : step t = .next t) (k : Nat) :
    RunsTo (k + 1) s t := by
  induction k generalizing s with
  | zero => exact ⟨t, hs, rfl⟩
  | succ k ih => exact ⟨t, hs, ih ht⟩

/-- Settles O10: the state after a stall stalls again, as its own fetch reads the same bytes. -/
theorem undefinedOpcodeStallsForEver : Obligations.UndefinedOpcodeStallsForEver := by
  refine ⟨fun s hr ho => ?_, opcodeByte_ne_zero⟩
  have hd := State.decodedAtPc_eq_error.mpr ⟨rfl, ho⟩
  have hstall : step s.fetch = .next s.fetch := step_of_rejected (s := s.fetch) hr hd
  exact ⟨stepTransactions_of_rejected hr hd,
    fun k => ⟨runsTo_of_fixed (step_of_rejected hr hd) hstall k, hr⟩⟩

/-- Settles O11: such a JMP leaves the state after its fetch, and does so again from there. -/
theorem jumpToItselfNeverEnds : Obligations.JumpToItselfNeverEnds := by
  intro s r hr hd hreg
  have hjmp : exec (.jmp r.toByte) s.fetch = .next s.fetch := by
    rw [exec_jmp, State.reg_fetch, hreg]
    rfl
  exact runsTo_of_fixed ((step_of_decoded hr hd).trans hjmp)
    ((step_of_decoded (s := s.fetch) hr hd).trans hjmp)

/-! ### The output log -/

/-- An effect sends nothing, a PRN's number, or the diagnostic of a MOD by zero. -/
theorem Effect.out_cases {i : Instr} {s t : State} (e : Effect s i t) :
    t.out = s.out ∨ (∃ a : RegIdx, i = .prn a.toByte ∧ t.out = s.out ++ [.num (s.reg a)]) ∨
      ∃ a b : RegIdx, i = .mod a.toByte b.toByte ∧ s.reg b = 0 ∧
        t.out = s.out ++ [.divZeroDiag] := by
  cases e with
  | prn a => exact .inr (.inl ⟨a, rfl, rfl⟩)
  | modZero a b hb => exact .inr (.inr ⟨a, b, rfl, hb, rfl⟩)
  | jeq a | jne a => exact .inl (by split <;> rfl)
  | _ => exact .inl rfl

/-! ### The digits of a line -/

/-- The number a list of decimal digits writes. -/
def decimalValue (digits : List Char) : Nat :=
  digits.foldl (fun n c => 10 * n + (c.toNat - '0'.toNat)) 0

theorem digitChar_value {d : Nat} (h : d < 10) : (Nat.digitChar d).toNat - '0'.toNat = d := by
  interval_cases d <;> rfl

theorem digitChar_isDigit {d : Nat} (h : d < 10) : (Nat.digitChar d).isDigit := by
  interval_cases d <;> rfl

/-- A line's digits are those of numbers below 10, the first of them not 0 where there are more, that
make up the byte's value. -/
theorem decimalDigits_eq_map (v : Byte) : ∃ ds : List Nat,
    decimalDigits v = ds.map Nat.digitChar ∧ (∀ d ∈ ds, d < 10) ∧ ds ≠ [] ∧
      (ds.head? = some 0 → ds.length = 1) ∧ ds.foldl (fun n d => 10 * n + d) 0 = v.toNat := by
  have hv := v.isLt
  simp only [decimalDigits]
  split
  case isTrue h => exact ⟨[v.toNat], rfl, by simpa, by simp, by simp, by simp⟩
  case isFalse h1 =>
    split
    case isTrue h2 =>
      refine ⟨[v.toNat / 10, v.toNat % 10], rfl, ?_, by simp, ?_, ?_⟩ <;> simp <;> omega
    case isFalse h2 =>
      refine ⟨[v.toNat / 100, v.toNat / 10 % 10, v.toNat % 10], rfl, ?_, by simp, ?_, ?_⟩ <;>
        simp <;> omega

/-- The value of the digits of numbers below 10 is made up of the numbers. -/
theorem foldl_digitChar {ds : List Nat} (h : ∀ d ∈ ds, d < 10) (n : Nat) :
    (ds.map Nat.digitChar).foldl (fun n c => 10 * n + (c.toNat - '0'.toNat)) n =
      ds.foldl (fun n d => 10 * n + d) n := by
  induction ds generalizing n with
  | nil => rfl
  | cons d ds ih =>
    obtain ⟨hd, hds⟩ := List.forall_mem_cons.mp h
    rw [List.map_cons, List.foldl_cons, List.foldl_cons, digitChar_value hd, ih hds]

/-- The digits of a byte write it in decimal, without a leading zero. -/
theorem decimalDigits_spec (v : Byte) :
    decimalValue (decimalDigits v) = v.toNat ∧ (∀ c ∈ decimalDigits v, c.isDigit) ∧
      decimalDigits v ≠ [] ∧
      ((decimalDigits v).head? = some '0' → (decimalDigits v).length = 1) := by
  obtain ⟨ds, hmap, hlt, hne, hhead, hval⟩ := decimalDigits_eq_map v
  rw [hmap]
  refine ⟨(foldl_digitChar hlt 0).trans hval, fun c hc => ?_, by simpa using hne, fun h0 => ?_⟩
  · obtain ⟨d, hd, rfl⟩ := List.mem_map.mp hc
    exact digitChar_isDigit (hlt d hd)
  · obtain ⟨d, hd, hd0⟩ : ∃ d, ds.head? = some d ∧ Nat.digitChar d = '0' := by
      simpa [List.head?_map] using h0
    have hzero := digitChar_value (hlt d (List.mem_of_head? hd))
    rw [hd0, Nat.sub_self] at hzero
    rw [List.length_map, hhead (hzero ▸ hd)]

/-- Settles O39: what effects send, and the digits of a line. -/
theorem outputEventsAndLines : Obligations.OutputEventsAndLines := by
  refine ⟨fun i s t h => (effect_of_exec h).out_cases, fun s a => ⟨_, exec_prn a s, rfl⟩,
    fun s a b hb => ⟨_, exec_mod_zero a b hb, rfl⟩,
    fun v => ⟨decimalDigits v, rfl, decimalDigits_spec v⟩, rfl⟩

/-! ### The log is not read -/

/-- The state with another output log. -/
def State.withLog (s : State) (log : List Event) : State := { s with out := log }

/-- What it is for an instruction that leads from one state to another to append some events, at most
one, to the log, whatever the log is. -/
def AppendsToAnyLog (i : Instr) (s t : State) (es : List Event) : Prop :=
  es.length ≤ 1 ∧ t.out = s.out ++ es ∧ ∀ log, Effect (s.withLog log) i (t.withLog (log ++ es))

/-- An instruction that keeps every log appends nothing. -/
theorem appendsToAnyLog_nil {i : Instr} {s t : State} (hout : t.out = s.out)
    (he : ∀ log, Effect (s.withLog log) i (t.withLog log)) : AppendsToAnyLog i s t [] :=
  ⟨Nat.zero_le 1, hout.trans (List.append_nil _).symm,
    fun log => (List.append_nil log).symm ▸ he log⟩

/-- With another log an effect is the same, and appends the same events, at most one. -/
theorem Effect.exists_appendsToAnyLog {i : Instr} {s t : State} (e : Effect s i t) :
    ∃ es, AppendsToAnyLog i s t es := by
  cases e with
  | prn a => exact ⟨[.num (s.reg a)], le_rfl, rfl, fun _ => .prn a⟩
  | modZero a b h => exact ⟨[.divZeroDiag], le_rfl, rfl, fun _ => .modZero a b h⟩
  | jeq a =>
    refine ⟨[], appendsToAnyLog_nil (by split <;> rfl) fun log => ?_⟩
    exact apply_ite (State.withLog · log) (s.flE = true) _ _ ▸ .jeq a
  | jne a =>
    refine ⟨[], appendsToAnyLog_nil (by split <;> rfl) fun log => ?_⟩
    exact apply_ite (State.withLog · log) (s.flE = true) _ _ ▸ .jne a
  | illegal h => exact ⟨[], appendsToAnyLog_nil rfl fun _ => .illegal h⟩
  | hlt => exact ⟨[], appendsToAnyLog_nil rfl fun _ => .hlt⟩
  | ret => exact ⟨[], appendsToAnyLog_nil rfl fun _ => .ret⟩
  | push a => exact ⟨[], appendsToAnyLog_nil rfl fun _ => .push a⟩
  | pop a => exact ⟨[], appendsToAnyLog_nil rfl fun _ => .pop a⟩
  | call a => exact ⟨[], appendsToAnyLog_nil rfl fun _ => .call a⟩
  | jmp a => exact ⟨[], appendsToAnyLog_nil rfl fun _ => .jmp a⟩
  | not a => exact ⟨[], appendsToAnyLog_nil rfl fun _ => .not a⟩
  | ldi a imm => exact ⟨[], appendsToAnyLog_nil rfl fun _ => .ldi a imm⟩
  | add a b => exact ⟨[], appendsToAnyLog_nil rfl fun _ => .add a b⟩
  | sub a b => exact ⟨[], appendsToAnyLog_nil rfl fun _ => .sub a b⟩
  | mul a b => exact ⟨[], appendsToAnyLog_nil rfl fun _ => .mul a b⟩
  | div a b h => exact ⟨[], appendsToAnyLog_nil rfl fun _ => .div a b h⟩
  | divZero a b h => exact ⟨[], appendsToAnyLog_nil rfl fun _ => .divZero a b h⟩
  | mod a b h => exact ⟨[], appendsToAnyLog_nil rfl fun _ => .mod a b h⟩
  | cmp a b => exact ⟨[], appendsToAnyLog_nil rfl fun _ => .cmp a b⟩
  | and a b => exact ⟨[], appendsToAnyLog_nil rfl fun _ => .and a b⟩
  | or a b => exact ⟨[], appendsToAnyLog_nil rfl fun _ => .or a b⟩
  | xor a b => exact ⟨[], appendsToAnyLog_nil rfl fun _ => .xor a b⟩
  | shl a b => exact ⟨[], appendsToAnyLog_nil rfl fun _ => .shl a b⟩
  | shr a b => exact ⟨[], appendsToAnyLog_nil rfl fun _ => .shr a b⟩

/-- The events on the port are those a step appends. -/
theorem stepEvents_eq {s t : State} {es : List Event} (h : step s = .next t)
    (hout : t.out = s.out ++ es) : stepEvents s = es := by
  simp only [stepEvents, h, hout, List.drop_left]

/-- Settles O14: a stall appends nothing, and an effect appends its events to any log. -/
theorem outputLogIsNeverRead : Obligations.OutputLogIsNeverRead := by
  intro s t h
  obtain ⟨hr, ⟨r, hd, rfl⟩ | ⟨i, hd, e⟩⟩ := step_cases h
  · have hout : s.fetch.out = s.out ++ [] := (List.append_nil _).symm
    refine ⟨[], Nat.zero_le 1, hout, stepEvents_eq h hout, fun log => ?_⟩
    rw [List.append_nil]
    exact step_of_rejected (s := s.withLog log) hr hd
  · obtain ⟨es, hlen, hout, he⟩ := e.exists_appendsToAnyLog
    refine ⟨es, hlen, hout, stepEvents_eq h hout, fun log => ?_⟩
    exact (step_of_decoded (s := s.withLog log) hr hd).trans (exec_of_effect (he log))

end Sys2Proof.Machine
end
